-- ==== Sys2Proof/Word.lean ====
section
/-! DEFINITION. The value types of GATE-CORE (spec 00_scope.md R4, R6): every quantity is unsigned and of a
stated width, bit 0 the least significant. -/

namespace Sys2Proof

/-- An 8-bit quantity: a general register, a timer, a memory byte, the field NN. -/
abbrev Byte := BitVec 8

/-- A 16-bit quantity: the program counter, the index register, a call-stack slot, an instruction word. -/
abbrev Word := BitVec 16

/-- A 4-bit field of an instruction word. -/
abbrev Nibble := BitVec 4

/-- The 12-bit field NNN of an instruction word. -/
abbrev Addr12 := BitVec 12

/-- The index of a general register, 0x0 to 0xF (R10). -/
abbrev RegIx := Fin 16

/-- The index of VF, the register that is also the flag target (R11). -/
abbrev vf : RegIx := 15

end Sys2Proof
end

