-- ==== Sys2Proof/Config.lean ====
section
/-! DEFINITION. What one built GATE-CORE fixes for its life (the parameters of spec 00_scope.md R5, whose values
stand in `Machine/Defaults.lean`), and the free values: constants without a body, of which no proof can see a
value. -/

namespace Sys2Proof

/-- `FONT_STORE` (R47): what a program store into the font region 0x000 to 0x04F does. -/
inductive FontStore where
  /-- The instruction raises the fatal `MemoryAccessFault` and writes nothing. -/
  | fault
  /-- The bytes that fall in the region are dropped, the others are written. -/
  | ignore
  /-- All bytes are written. -/
  | allow
deriving DecidableEq, Repr

/-- `SHIFT_SOURCE` (R152): the register the shifts read. -/
inductive ShiftSource where
  /-- The operand is `V[X]`, the field Y is ignored. -/
  | vx
  /-- The operand is `V[Y]`. -/
  | vy
deriving DecidableEq, Repr

/-- The parameters of R5. `State` carries them, so that every statement over states holds for every built
block; no step changes them (R200: "fixed for the life of the machine"). `ROM` is the argument of
`Machine.construct`; `TICK_DIV` is read by no rule (R290) and has no field (log entry 15). -/
structure Params where
  /-- `FONT`: the 80 bytes of 0x000 to 0x04F at reset (R28). -/
  font : Vector Byte 80
  /-- `FONT_STORE` (R47). -/
  fontStore : FontStore
  /-- `SHIFT_SOURCE` (R152). -/
  shiftSource : ShiftSource
  /-- `EXT_TIMER`: whether FX07, FX15, FX18 are instructions (R200). -/
  extTimer : Bool
  /-- `EXT_FONT`: whether FX29 is an instruction (R200). -/
  extFont : Bool
  /-- `EXT_REGMEM`: whether FX55, FX65 are instructions (R200). -/
  extRegmem : Bool
  /-- `REGMEM_I_INCREMENT`: whether FX55, FX65 leave `I` advanced by X+1 (R209). -/
  regmemIIncrement : Bool
  /-- `EXT_JUMPV0`: whether BNNN is an instruction (R200). -/
  extJumpV0 : Bool
  /-- `EXT_KEY`: whether EX9E, EXA1, FX0A are instructions (R200). -/
  extKey : Bool
deriving DecidableEq, Repr

/-- FREE VALUE (log entry 3). The random byte of a tick for which the state lists no input (R157: "every value
0..255 is possible at every execution"), a fresh one for each value of the counter. -/
opaque Config.freeRandom : Nat → Byte

/-- FREE VALUE (log entry 3). The key input of a tick for which the state lists no input (R213). -/
opaque Config.freeKeys : Nat → Word

/-- FREE VALUE (log entry 4). What `LD F,VX` writes to `I` when `V[X] > 0x0F` (R205: "any 16-bit value"; U8). -/
opaque Config.freeGlyphAddress : Nat → Word

end Sys2Proof
end

