-- ==== Sys2Proof/Syntax.lean ====
section
/-! DEFINITION. The instructions of GATE-CHIP8: one constructor for each of the 34 rows of spec/opcode_table.json
(30_encoding.md R75, R76). Register indices and the row count are bounded by their types, immediates are bit
fields (R71, R73). -/

namespace Sys2Proof

/-- One instruction, with the fields of its encoding. -/
inductive Instr where
  /-- `CLS`, 00E0 (R181). -/
  | cls
  /-- `RET`, 00EE (R124). -/
  | ret
  /-- `JP NNN`, 1NNN (R121). -/
  | jp (nnn : Addr12)
  /-- `CALL NNN`, 2NNN (R122). -/
  | call (nnn : Addr12)
  /-- `SE VX,NN`, 3XNN (R126). -/
  | seImm (x : RegIx) (nn : Byte)
  /-- `SNE VX,NN`, 4XNN (R127). -/
  | sneImm (x : RegIx) (nn : Byte)
  /-- `SE VX,VY`, 5XYn; the low nibble is kept as a field and ignored by the meaning (R78, R128). -/
  | seReg (x y : RegIx) (ign : Nibble)
  /-- `LD VX,NN`, 6XNN (R142). -/
  | ldImm (x : RegIx) (nn : Byte)
  /-- `ADD VX,NN`, 7XNN (R143). -/
  | addImm (x : RegIx) (nn : Byte)
  /-- `LD VX,VY`, 8XY0 (R144). -/
  | ldReg (x y : RegIx)
  /-- `OR VX,VY`, 8XY1 (R145). -/
  | orReg (x y : RegIx)
  /-- `AND VX,VY`, 8XY2 (R146). -/
  | andReg (x y : RegIx)
  /-- `XOR VX,VY`, 8XY3 (R147). -/
  | xorReg (x y : RegIx)
  /-- `ADD VX,VY`, 8XY4 (R148). -/
  | addReg (x y : RegIx)
  /-- `SUB VX,VY`, 8XY5 (R149). -/
  | subReg (x y : RegIx)
  /-- `SHR VX`, 8XY6; Y is read only with `SHIFT_SOURCE = VY` (R151, R152). -/
  | shr (x y : RegIx)
  /-- `SUBN VX,VY`, 8XY7 (R150). -/
  | subnReg (x y : RegIx)
  /-- `SHL VX`, 8XYE; Y is read only with `SHIFT_SOURCE = VY` (R153, R152). -/
  | shl (x y : RegIx)
  /-- `SNE VX,VY`, 9XYn; the low nibble is kept as a field and ignored by the meaning (R78, R129). -/
  | sneReg (x y : RegIx) (ign : Nibble)
  /-- `LD I,NNN`, ANNN (R171). -/
  | ldI (nnn : Addr12)
  /-- `RND VX,NN`, CXNN (R157). -/
  | rnd (x : RegIx) (nn : Byte)
  /-- `DRW VX,VY,N`, DXYN; `n` is the row count 0..15 (R182). -/
  | drw (x y : RegIx) (n : Fin 16)
  /-- `ADD I,VX`, FX1E (R172). -/
  | addI (x : RegIx)
  /-- `LD B,VX`, FX33 (R173). -/
  | ldB (x : RegIx)
  /-- `JP V0,NNN`, BNNN, group `EXT_JUMPV0` (R201). -/
  | jpV0 (nnn : Addr12)
  /-- `SKP VX`, EX9E, group `EXT_KEY` (R214). -/
  | skp (x : RegIx)
  /-- `SKNP VX`, EXA1, group `EXT_KEY` (R215). -/
  | sknp (x : RegIx)
  /-- `LD VX,DT`, FX07, group `EXT_TIMER` (R202). -/
  | ldVxDt (x : RegIx)
  /-- `LD VX,K`, FX0A, group `EXT_KEY` (R216). -/
  | ldVxK (x : RegIx)
  /-- `LD DT,VX`, FX15, group `EXT_TIMER` (R203). -/
  | ldDtVx (x : RegIx)
  /-- `LD ST,VX`, FX18, group `EXT_TIMER` (R204). -/
  | ldStVx (x : RegIx)
  /-- `LD F,VX`, FX29, group `EXT_FONT` (R205). -/
  | ldF (x : RegIx)
  /-- `LD [I],VX`, FX55, group `EXT_REGMEM` (R206). -/
  | ldMemVx (x : RegIx)
  /-- `LD VX,[I]`, FX65, group `EXT_REGMEM` (R207). -/
  | ldVxMem (x : RegIx)
deriving DecidableEq, Repr

end Sys2Proof
end

