-- ==== Sys2Proof/WellFormed.lean ====
section
/-! DEFINITION. Which instructions a built block has. Field ranges are carried by the types of `Instr`; the one
check left is the gate of 45_extension_ops.md R200: an extension encoding is an instruction only when its group's
parameter is true. -/

namespace Sys2Proof

/-- The groups of R1 and R200. -/
inductive Group where
  | base
  | extTimer
  | extFont
  | extRegmem
  | extJumpV0
  | extKey
deriving DecidableEq, Repr

/-- Whether the parameters switch a group on; the base set always is (R75, R200). -/
def Group.enabled (p : Params) : Group → Bool
  | .base => true
  | .extTimer => p.extTimer
  | .extFont => p.extFont
  | .extRegmem => p.extRegmem
  | .extJumpV0 => p.extJumpV0
  | .extKey => p.extKey

/-- The parameters `p` with one group switched on and nothing else changed. -/
def Params.enable (p : Params) : Group → Params
  | .base => p
  | .extTimer => { p with extTimer := true }
  | .extFont => { p with extFont := true }
  | .extRegmem => { p with extRegmem := true }
  | .extJumpV0 => { p with extJumpV0 := true }
  | .extKey => { p with extKey := true }

/-- The group of an instruction (the tables of R75 and R76). -/
def Instr.group : Instr → Group
  | .cls | .ret | .jp _ | .call _ => .base
  | .seImm _ _ | .sneImm _ _ | .seReg _ _ _ | .sneReg _ _ _ => .base
  | .ldImm _ _ | .addImm _ _ | .ldReg _ _ | .orReg _ _ | .andReg _ _ | .xorReg _ _ => .base
  | .addReg _ _ | .subReg _ _ | .subnReg _ _ | .shr _ _ | .shl _ _ => .base
  | .ldI _ | .rnd _ _ | .drw _ _ _ | .addI _ | .ldB _ => .base
  | .jpV0 _ => .extJumpV0
  | .skp _ | .sknp _ | .ldVxK _ => .extKey
  | .ldVxDt _ | .ldDtVx _ | .ldStVx _ => .extTimer
  | .ldF _ => .extFont
  | .ldMemVx _ | .ldVxMem _ => .extRegmem

/-- An instruction is well-formed for a block when that block has its group (R200). -/
def Instr.wellFormed (p : Params) (i : Instr) : Bool := i.group.enabled p

end Sys2Proof
end

