-- ==== Sys2Proof/Decode.lean ====
section
/-! DEFINITION. Decoding (spec 30_encoding.md R70 to R79) and the encoder written from the same tables. Decoding is
total: a word is an instruction or `Unknown`. -/

namespace Sys2Proof

/-! ### Fields of the instruction word (R71) -/

/-- `F`, w[15:12]: the family. -/
def fieldF (w : Word) : Nibble := w.extractLsb' 12 4
/-- `X`, w[11:8]: the first register operand. -/
def fieldX (w : Word) : RegIx := (w.extractLsb' 8 4).toFin
/-- `Y`, w[7:4]: the second register operand. -/
def fieldY (w : Word) : RegIx := (w.extractLsb' 4 4).toFin
/-- `N`, w[3:0]: row count, or the selector of family 8. -/
def fieldN (w : Word) : Nibble := w.extractLsb' 0 4
/-- `NN`, w[7:0]: immediate byte, or the selector of families E and F. -/
def fieldNN (w : Word) : Byte := w.extractLsb' 0 8
/-- `NNN`, w[11:0]: address. -/
def fieldNNN (w : Word) : Addr12 := w.extractLsb' 0 12

/-! ### Decoding -/

/-- The second selector of family 8 is `N` (R74, R75). -/
def decodeFamily8 (w : Word) : Option Instr :=
  match fieldN w with
  | 0x0#4 => some (.ldReg (fieldX w) (fieldY w))
  | 0x1#4 => some (.orReg (fieldX w) (fieldY w))
  | 0x2#4 => some (.andReg (fieldX w) (fieldY w))
  | 0x3#4 => some (.xorReg (fieldX w) (fieldY w))
  | 0x4#4 => some (.addReg (fieldX w) (fieldY w))
  | 0x5#4 => some (.subReg (fieldX w) (fieldY w))
  | 0x6#4 => some (.shr (fieldX w) (fieldY w))
  | 0x7#4 => some (.subnReg (fieldX w) (fieldY w))
  | 0xE#4 => some (.shl (fieldX w) (fieldY w))
  | _ => none

/-- The second selector of family E is `NN` (R74, R76). -/
def decodeFamilyE (w : Word) : Option Instr :=
  match fieldNN w with
  | 0x9E#8 => some (.skp (fieldX w))
  | 0xA1#8 => some (.sknp (fieldX w))
  | _ => none

/-- The second selector of family F is `NN` (R74 to R76). -/
def decodeFamilyF (w : Word) : Option Instr :=
  match fieldNN w with
  | 0x07#8 => some (.ldVxDt (fieldX w))
  | 0x0A#8 => some (.ldVxK (fieldX w))
  | 0x15#8 => some (.ldDtVx (fieldX w))
  | 0x18#8 => some (.ldStVx (fieldX w))
  | 0x1E#8 => some (.addI (fieldX w))
  | 0x29#8 => some (.ldF (fieldX w))
  | 0x33#8 => some (.ldB (fieldX w))
  | 0x55#8 => some (.ldMemVx (fieldX w))
  | 0x65#8 => some (.ldVxMem (fieldX w))
  | _ => none

/-- The row of the tables of R75 and R76 that a word matches, whatever groups are on: dispatch on the family and,
in families 0, 8, E and F, on a second selector (R74). In family 0 the whole word is the selector (R77); in
families 5 and 9 the low nibble selects nothing (R78). -/
def decodeTable (w : Word) : Option Instr :=
  match fieldF w with
  | 0x0#4 => if w = 0x00E0#16 then some .cls else if w = 0x00EE#16 then some .ret else none
  | 0x1#4 => some (.jp (fieldNNN w))
  | 0x2#4 => some (.call (fieldNNN w))
  | 0x3#4 => some (.seImm (fieldX w) (fieldNN w))
  | 0x4#4 => some (.sneImm (fieldX w) (fieldNN w))
  | 0x5#4 => some (.seReg (fieldX w) (fieldY w) (fieldN w))
  | 0x6#4 => some (.ldImm (fieldX w) (fieldNN w))
  | 0x7#4 => some (.addImm (fieldX w) (fieldNN w))
  | 0x8#4 => decodeFamily8 w
  | 0x9#4 => some (.sneReg (fieldX w) (fieldY w) (fieldN w))
  | 0xA#4 => some (.ldI (fieldNNN w))
  | 0xB#4 => some (.jpV0 (fieldNNN w))
  | 0xC#4 => some (.rnd (fieldX w) (fieldNN w))
  | 0xD#4 => some (.drw (fieldX w) (fieldY w) (fieldN w).toFin)
  | 0xE#4 => decodeFamilyE w
  | 0xF#4 => decodeFamilyF w
  | _ => none

/-- What a word decodes to (R74): an instruction the block has, or `Unknown`. -/
inductive Decoded where
  | instr (i : Instr)
  | unknown (w : Word)
deriving DecidableEq, Repr

/-- Decode (R74, R104): the row the word matches, or `Unknown` when it matches none or a row whose group is off
(R76, R79, R200). -/
def decode (p : Params) (w : Word) : Decoded :=
  match decodeTable w with
  | some i => if i.wellFormed p then .instr i else .unknown w
  | none => .unknown w

/-- The instruction word of two consecutive memory bytes, big-endian: the byte at the lower address in bits 15:8
(R48, R102). -/
def wordOfBytes (first second : Byte) : Word := (first ++ second : BitVec (8 + 8))

/-- The two bytes of a word in memory order, the byte at the lower address first (R48). -/
def bytesOfWord (w : Word) : Byte × Byte := (w.extractLsb' 8 8, w.extractLsb' 0 8)

/-- The decoder on two memory bytes. -/
def decodeBytes (p : Params) (first second : Byte) : Decoded := decode p (wordOfBytes first second)

/-! ### Encoding: the formats of R72 -/

/-- Format `A`: F, NNN. -/
def formA (f : Nibble) (nnn : Addr12) : Word := (f ++ nnn : BitVec (4 + 12))
/-- Formats `XNN` and `XS`: F, X, and an immediate or selector byte. -/
def formXNN (f : Nibble) (x : RegIx) (nn : Byte) : Word := (f ++ BitVec.ofFin (w := 4) x ++ nn : BitVec (4 + 4 + 8))
/-- Formats `XY` and `XYN`: F, X, Y, and a selector, an ignored nibble or a row count. -/
def formXYN (f : Nibble) (x y : RegIx) (n : Nibble) : Word :=
  (f ++ BitVec.ofFin (w := 4) x ++ BitVec.ofFin (w := 4) y ++ n : BitVec (4 + 4 + 4 + 4))

/-- The word of an instruction (the patterns of R75 and R76). -/
def encode : Instr → Word
  | .cls => 0x00E0#16
  | .ret => 0x00EE#16
  | .jp nnn => formA 0x1#4 nnn
  | .call nnn => formA 0x2#4 nnn
  | .seImm x nn => formXNN 0x3#4 x nn
  | .sneImm x nn => formXNN 0x4#4 x nn
  | .seReg x y ign => formXYN 0x5#4 x y ign
  | .ldImm x nn => formXNN 0x6#4 x nn
  | .addImm x nn => formXNN 0x7#4 x nn
  | .ldReg x y => formXYN 0x8#4 x y 0x0#4
  | .orReg x y => formXYN 0x8#4 x y 0x1#4
  | .andReg x y => formXYN 0x8#4 x y 0x2#4
  | .xorReg x y => formXYN 0x8#4 x y 0x3#4
  | .addReg x y => formXYN 0x8#4 x y 0x4#4
  | .subReg x y => formXYN 0x8#4 x y 0x5#4
  | .shr x y => formXYN 0x8#4 x y 0x6#4
  | .subnReg x y => formXYN 0x8#4 x y 0x7#4
  | .shl x y => formXYN 0x8#4 x y 0xE#4
  | .sneReg x y ign => formXYN 0x9#4 x y ign
  | .ldI nnn => formA 0xA#4 nnn
  | .rnd x nn => formXNN 0xC#4 x nn
  | .drw x y n => formXYN 0xD#4 x y (BitVec.ofFin (w := 4) n)
  | .addI x => formXNN 0xF#4 x 0x1E#8
  | .ldB x => formXNN 0xF#4 x 0x33#8
  | .jpV0 nnn => formA 0xB#4 nnn
  | .skp x => formXNN 0xE#4 x 0x9E#8
  | .sknp x => formXNN 0xE#4 x 0xA1#8
  | .ldVxDt x => formXNN 0xF#4 x 0x07#8
  | .ldVxK x => formXNN 0xF#4 x 0x0A#8
  | .ldDtVx x => formXNN 0xF#4 x 0x15#8
  | .ldStVx x => formXNN 0xF#4 x 0x18#8
  | .ldF x => formXNN 0xF#4 x 0x29#8
  | .ldMemVx x => formXNN 0xF#4 x 0x55#8
  | .ldVxMem x => formXNN 0xF#4 x 0x65#8

/-! ### The opcode tables as data (R75, R76) -/

/-- The mnemonics of the tables of R75 and R76, one for each row. -/
inductive Mnemonic where
  /-- `CLS`, 00E0. -/
  | cls
  /-- `RET`, 00EE. -/
  | ret
  /-- `JP NNN`, 1NNN. -/
  | jp
  /-- `CALL NNN`, 2NNN. -/
  | call
  /-- `SE VX,NN`, 3XNN. -/
  | seImm
  /-- `SNE VX,NN`, 4XNN. -/
  | sneImm
  /-- `SE VX,VY`, 5XY0. -/
  | seReg
  /-- `LD VX,NN`, 6XNN. -/
  | ldImm
  /-- `ADD VX,NN`, 7XNN. -/
  | addImm
  /-- `LD VX,VY`, 8XY0. -/
  | ldReg
  /-- `OR VX,VY`, 8XY1. -/
  | orReg
  /-- `AND VX,VY`, 8XY2. -/
  | andReg
  /-- `XOR VX,VY`, 8XY3. -/
  | xorReg
  /-- `ADD VX,VY`, 8XY4. -/
  | addReg
  /-- `SUB VX,VY`, 8XY5. -/
  | subReg
  /-- `SHR VX`, 8XY6. -/
  | shr
  /-- `SUBN VX,VY`, 8XY7. -/
  | subnReg
  /-- `SHL VX`, 8XYE. -/
  | shl
  /-- `SNE VX,VY`, 9XY0. -/
  | sneReg
  /-- `LD I,NNN`, ANNN. -/
  | ldI
  /-- `RND VX,NN`, CXNN. -/
  | rnd
  /-- `DRW VX,VY,N`, DXYN. -/
  | drw
  /-- `ADD I,VX`, FX1E. -/
  | addI
  /-- `LD B,VX`, FX33. -/
  | ldB
  /-- `JP V0,NNN`, BNNN. -/
  | jpV0
  /-- `SKP VX`, EX9E. -/
  | skp
  /-- `SKNP VX`, EXA1. -/
  | sknp
  /-- `LD VX,DT`, FX07. -/
  | ldVxDt
  /-- `LD VX,K`, FX0A. -/
  | ldVxK
  /-- `LD DT,VX`, FX15. -/
  | ldDtVx
  /-- `LD ST,VX`, FX18. -/
  | ldStVx
  /-- `LD F,VX`, FX29. -/
  | ldF
  /-- `LD [I],VX`, FX55. -/
  | ldMemVx
  /-- `LD VX,[I]`, FX65. -/
  | ldVxMem
deriving DecidableEq, Repr

/-- One row of the tables of R75 and R76. A word matches it when `(w AND mask) = value`. -/
structure OpcodeRow where
  mask : Word
  value : Word
  group : Group
  mnemonic : Mnemonic
deriving DecidableEq, Repr

/-- "A word matches a row when `(w AND mask) = match`" (R75). -/
def OpcodeRow.matchesWord (r : OpcodeRow) (w : Word) : Bool := (w &&& r.mask) == r.value

/-- The table of R75, families 0 to 7. -/
def opcodeRowsLow : List OpcodeRow :=
  [⟨0xFFFF#16, 0x00E0#16, .base, .cls⟩, ⟨0xFFFF#16, 0x00EE#16, .base, .ret⟩, ⟨0xF000#16, 0x1000#16, .base, .jp⟩,
   ⟨0xF000#16, 0x2000#16, .base, .call⟩, ⟨0xF000#16, 0x3000#16, .base, .seImm⟩, ⟨0xF000#16, 0x4000#16, .base, .sneImm⟩,
   ⟨0xF000#16, 0x5000#16, .base, .seReg⟩, ⟨0xF000#16, 0x6000#16, .base, .ldImm⟩, ⟨0xF000#16, 0x7000#16, .base, .addImm⟩]

/-- The table of R75, family 8. -/
def opcodeRowsAlu : List OpcodeRow :=
  [⟨0xF00F#16, 0x8000#16, .base, .ldReg⟩, ⟨0xF00F#16, 0x8001#16, .base, .orReg⟩, ⟨0xF00F#16, 0x8002#16, .base, .andReg⟩,
   ⟨0xF00F#16, 0x8003#16, .base, .xorReg⟩, ⟨0xF00F#16, 0x8004#16, .base, .addReg⟩, ⟨0xF00F#16, 0x8005#16, .base, .subReg⟩,
   ⟨0xF00F#16, 0x8006#16, .base, .shr⟩, ⟨0xF00F#16, 0x8007#16, .base, .subnReg⟩, ⟨0xF00F#16, 0x800E#16, .base, .shl⟩]

/-- The table of R75, families 9 to F. -/
def opcodeRowsHigh : List OpcodeRow :=
  [⟨0xF000#16, 0x9000#16, .base, .sneReg⟩, ⟨0xF000#16, 0xA000#16, .base, .ldI⟩, ⟨0xF000#16, 0xC000#16, .base, .rnd⟩,
   ⟨0xF000#16, 0xD000#16, .base, .drw⟩, ⟨0xF0FF#16, 0xF01E#16, .base, .addI⟩, ⟨0xF0FF#16, 0xF033#16, .base, .ldB⟩]

/-- The table of R76. -/
def opcodeRowsExtension : List OpcodeRow :=
  [⟨0xF000#16, 0xB000#16, .extJumpV0, .jpV0⟩, ⟨0xF0FF#16, 0xE09E#16, .extKey, .skp⟩, ⟨0xF0FF#16, 0xE0A1#16, .extKey, .sknp⟩,
   ⟨0xF0FF#16, 0xF007#16, .extTimer, .ldVxDt⟩, ⟨0xF0FF#16, 0xF00A#16, .extKey, .ldVxK⟩, ⟨0xF0FF#16, 0xF015#16, .extTimer, .ldDtVx⟩,
   ⟨0xF0FF#16, 0xF018#16, .extTimer, .ldStVx⟩, ⟨0xF0FF#16, 0xF029#16, .extFont, .ldF⟩, ⟨0xF0FF#16, 0xF055#16, .extRegmem, .ldMemVx⟩,
   ⟨0xF0FF#16, 0xF065#16, .extRegmem, .ldVxMem⟩]

/-- The 34 rows of R75 and R76. `decode` does not read them: they are the second reading of the tables that the
decoder is compared with. -/
def opcodeRows : List OpcodeRow := opcodeRowsLow ++ opcodeRowsAlu ++ opcodeRowsHigh ++ opcodeRowsExtension

/-- The mnemonic of an instruction, by which a row of the tables is told to be its row. -/
def Instr.mnemonic : Instr → Mnemonic
  | .cls => .cls
  | .ret => .ret
  | .jp _ => .jp
  | .call _ => .call
  | .seImm _ _ => .seImm
  | .sneImm _ _ => .sneImm
  | .seReg _ _ _ => .seReg
  | .ldImm _ _ => .ldImm
  | .addImm _ _ => .addImm
  | .ldReg _ _ => .ldReg
  | .orReg _ _ => .orReg
  | .andReg _ _ => .andReg
  | .xorReg _ _ => .xorReg
  | .addReg _ _ => .addReg
  | .subReg _ _ => .subReg
  | .shr _ _ => .shr
  | .subnReg _ _ => .subnReg
  | .shl _ _ => .shl
  | .sneReg _ _ _ => .sneReg
  | .ldI _ => .ldI
  | .rnd _ _ => .rnd
  | .drw _ _ _ => .drw
  | .addI _ => .addI
  | .ldB _ => .ldB
  | .jpV0 _ => .jpV0
  | .skp _ => .skp
  | .sknp _ => .sknp
  | .ldVxDt _ => .ldVxDt
  | .ldVxK _ => .ldVxK
  | .ldDtVx _ => .ldDtVx
  | .ldStVx _ => .ldStVx
  | .ldF _ => .ldF
  | .ldMemVx _ => .ldMemVx
  | .ldVxMem _ => .ldVxMem

/-! ### The host's view of the decoder -/

/-- Parameters under which every row of the opcode table is an instruction: every group on. The other parameters
are read by no decoding. -/
def Params.everyGroup : Params :=
  { font := Vector.replicate 80 0, fontStore := .fault, shiftSource := .vx, extTimer := true, extFont := true,
    extRegmem := true, regmemIIncrement := false, extJumpV0 := true, extKey := true }

/-- The instruction the decoder, with every group on, reads from the `nbits` low bits of `w`, laid out as the
hardware stores them: big-endian, the byte of bits 15:8 at the lower address. -/
def decodeTableWord (nbits w : Nat) : Option Instr :=
  let bytes := bytesOfWord (BitVec.ofNat 16 (w % 2 ^ nbits))
  match decodeBytes Params.everyGroup bytes.1 bytes.2 with
  | .instr i => some i
  | .unknown _ => none

end Sys2Proof
end

