-- ==== Sys2Proof/Machine/Defaults.lean ====
section
/-! DEFINITION. The parameter values this spec takes (00_scope.md R5, column "value"), with the default font of
10_state.md R28. -/

namespace Sys2Proof

/-- Glyphs 0 to 7 of the table of R28 (general knowledge, not in the source: log entry 10). -/
def fontLow : List Byte :=
  [0xF0, 0x90, 0x90, 0x90, 0xF0,  0x20, 0x60, 0x20, 0x20, 0x70,
   0xF0, 0x10, 0xF0, 0x80, 0xF0,  0xF0, 0x10, 0xF0, 0x10, 0xF0,
   0x90, 0x90, 0xF0, 0x10, 0x10,  0xF0, 0x80, 0xF0, 0x10, 0xF0,
   0xF0, 0x80, 0xF0, 0x90, 0xF0,  0xF0, 0x10, 0x20, 0x40, 0x40]

/-- Glyphs 8 to F of the table of R28 (log entry 10). -/
def fontHigh : List Byte :=
  [0xF0, 0x90, 0xF0, 0x90, 0xF0,  0xF0, 0x90, 0xF0, 0x10, 0xF0,
   0xF0, 0x90, 0xF0, 0x90, 0x90,  0xE0, 0x90, 0xE0, 0x90, 0xE0,
   0xF0, 0x80, 0x80, 0x80, 0xF0,  0xE0, 0x90, 0x90, 0x90, 0xE0,
   0xF0, 0x80, 0xF0, 0x80, 0xF0,  0xF0, 0x80, 0xF0, 0x80, 0x80]

/-- The default of the parameter `FONT` (R28). -/
def defaultFont : Vector Byte 80 := ⟨(fontLow ++ fontHigh).toArray, rfl⟩

/-- The value this spec takes for every parameter (R5). -/
def Params.specValues : Params :=
  { font := defaultFont
    fontStore := .fault
    shiftSource := .vx
    extTimer := false
    extFont := false
    extRegmem := false
    regmemIIncrement := false
    extJumpV0 := false
    extKey := false }

end Sys2Proof
end

