-- ==== Sys2Proof/Machine/State.lean ====
section
/-! DEFINITION. The state of GATE-CORE as plain data (spec 10_state.md), the events and outputs it records, the
reasons a step can stop, and the state after reset. -/

namespace Sys2Proof.Machine

/-- The run state `RUN` (R22). -/
inductive RunState where
  /-- Ticks execute. -/
  | running
  /-- The stop signal was observed between cycles. -/
  | stopped
  /-- A fatal event occurred, or the ROM load failed. -/
  | faulted
deriving DecidableEq, Repr

/-- The kinds of `MemoryAccessFault` (R236). -/
inductive AccessKind where
  | fetch
  | store
  | load
  | fontStore
deriving DecidableEq, Repr

/-- The six events with their payloads (R230, R231). `pc` is the address of the instruction; an address is an
unbounded natural number, since it never wraps (R45). -/
inductive Event where
  /-- `UnknownOpcode(word, PC)` (R232). -/
  | unknownOpcode (word pc : Word)
  /-- `MemoryAccessFault(kind, addr, PC)` (R236). -/
  | memoryAccessFault (kind : AccessKind) (addr : Nat) (pc : Word)
  /-- `StackOverflow(PC, word)` (R233). -/
  | stackOverflow (pc word : Word)
  /-- `StackUnderflow(PC, word)` (R234). -/
  | stackUnderflow (pc word : Word)
  /-- `MemoryOutOfBounds(addr, PC)` (R235). -/
  | memoryOutOfBounds (addr : Nat) (pc : Word)
  /-- `CapacityExceeded(L)` (R237). -/
  | capacityExceeded (length : Nat)
deriving DecidableEq, Repr

/-- The framebuffer `FB` (R20): 32 rows, top to bottom, of 64 pixels, left to right; `true` is on. -/
abbrev Frame := Vector (Vector Bool 64) 32

/-- The framebuffer with every pixel off. -/
def blankFrame : Frame := Vector.replicate 32 (Vector.replicate 64 false)

/-- One item the block hands to the environment (R30, R113). -/
inductive Output where
  /-- An event for the observability sink (R253). -/
  | event (e : Event)
  /-- The pulse `sound_trigger` (R246). -/
  | soundTrigger
  /-- The frame: a copy of all 2048 pixels (R252). -/
  | frame (fb : Frame)
deriving DecidableEq, Repr

/-- What the environment presents to one tick (R29, R112). -/
structure TickInput where
  /-- `stop`, the external cancellation signal (R101). -/
  stop : Bool
  /-- `rnd[7:0]`, read only when the instruction is `RND` (R157). -/
  rnd : Byte
  /-- `key[15:0]`, bit k = 1 while key k is pressed, read only by the `EXT_KEY` instructions (R213). -/
  key : Word
deriving DecidableEq, Repr

/-- `MEM` (R23) as address and byte pairs in one canonical form (`Memory.wf`, Machine/Ops.lean): the bytes that
differ from the reset contents. -/
abbrev Memory := List Host.Cell

/-- The state. `emitted`, `inputs` and `draws` are the model's own fields for what crosses the block's boundary
(log entries 2, 3, 5); `params` is what the built block fixes (log entry 1); all else is 10_state.md section 1. -/
structure State where
  /-- `V[0]`..`V[15]` (R10). -/
  v : Vector Byte 16
  /-- The index register `I` (R13). -/
  idx : Word
  /-- The program counter `PC` (R14). -/
  pc : Word
  /-- The call-stack slots `STK[0]`..`STK[15]` (R16). -/
  stk : Vector Word 16
  /-- The stack pointer `SP`, 0 to 16 (R17). -/
  sp : Fin 17
  /-- The delay timer `DT` (R18). -/
  dt : Byte
  /-- The sound timer `ST` (R19). -/
  st : Byte
  /-- `MEM` (R23). -/
  mem : Memory
  /-- The framebuffer `FB` (R20). -/
  fb : Frame
  /-- `DIRTY` (R21). -/
  dirty : Bool
  /-- `RUN` (R22). -/
  run : RunState
  /-- The parameters of the built block (R5); no step changes them. -/
  params : Params
  /-- Everything emitted since reset, the latest first (R30). No rule reads it. -/
  emitted : List Output
  /-- The inputs of the coming ticks, the next tick's first (R29). -/
  inputs : List TickInput
  /-- How many ticks have completed: the counter the free values of Config are applied to. -/
  draws : Nat
deriving DecidableEq, Repr

/-- The reasons a step can stop. The spec gives the machine no such stop: every event it describes is taken as a
next state, and "every state has a defined successor under every input" (93_implementation_defined.md). -/
inductive Fault where
  /-- A memory primitive was asked for an address above 0xFFF, which R43 and R44 leave undefined and call a
  programming error of the Executor that fails fast. Raised by the block accesses of Machine/Ops.lean; no
  instruction rule ever asks for one (R43, R44), so no step ends here (log entry 21). Safe. -/
  | memoryContract (addr : Nat)
deriving DecidableEq, Repr

/-- The reasons the model refuses an instruction. -/
inductive Refusal where
  /-- Raised by `exec` for an instruction without a meaning, by its mnemonic. Safe. No arm raises it. -/
  | notModelled (mnemonic : String)
deriving DecidableEq, Repr

/-- The machine right after reset (R31, R270, R271): the spec's parameter values, an empty ROM, memory at its
reset contents, no input listed and nothing emitted. -/
def State.reset : State :=
  { v := Vector.replicate 16 0
    idx := 0
    pc := 0x0200
    stk := Vector.replicate 16 0
    sp := 0
    dt := 0
    st := 0
    mem := []
    fb := blankFrame
    dirty := false
    run := .running
    params := Params.specValues
    emitted := []
    inputs := []
    draws := 0 }

end Sys2Proof.Machine
end

