-- ==== Sys2Proof/Machine/Ops.lean ====
section
/-! DEFINITION. The named operations of the machine: registers, program counter, call stack, memory, inputs and
outputs, and raising an event. -/

namespace Sys2Proof.Machine

/-! ### Single fields -/

/-- `PC <- a`. -/
def State.setPc (s : State) (a : Word) : State := { s with pc := a }
/-- `I <- a`. -/
def State.setIdx (s : State) (a : Word) : State := { s with idx := a }
/-- `DT <- b`. -/
def State.setDt (s : State) (b : Byte) : State := { s with dt := b }
/-- `ST <- b`. -/
def State.setSt (s : State) (b : Byte) : State := { s with st := b }
/-- `RUN <- r`. -/
def State.setRun (s : State) (r : RunState) : State := { s with run := r }
/-- `DIRTY <- d`. -/
def State.setDirty (s : State) (d : Bool) : State := { s with dirty := d }
/-- `FB <- fb`. -/
def State.setFb (s : State) (fb : Frame) : State := { s with fb := fb }
/-- The general registers, all at once. -/
def State.setV (s : State) (v : Vector Byte 16) : State := { s with v := v }
/-- The memory list, all at once. -/
def State.setMem (s : State) (m : Memory) : State := { s with mem := m }

/-! ### General registers (R10) -/

/-- `V[r]`. -/
def State.reg (s : State) (r : RegIx) : Byte := s.v.get r

/-- `V[r] <- b`. No register is hard-wired (R10). -/
def State.setReg (s : State) (r : RegIx) (b : Byte) : State := s.setV (s.v.set r.val b)

/-- `V[k] <- b` for consecutive k upwards from `k`; a write past `V[15]` has no register to go to. -/
def writeRegs (v : Vector Byte 16) (k : Nat) : List Byte → Vector Byte 16
  | [] => v
  | b :: bs => writeRegs (v.setIfInBounds k b) (k + 1) bs

/-! ### Program counter (R14, R15): arithmetic modulo 65536 -/

/-- `PC <- u16(PC+2)`. -/
def State.advance (s : State) : State := s.setPc (s.pc + 2)

/-- The conditional skips: `PC <- u16(PC+4)` when taken, else `PC <- u16(PC+2)` (R15). -/
def State.skipIf (s : State) (taken : Bool) : State := s.setPc (if taken then s.pc + 4 else s.pc + 2)

/-! ### The call stack (R16, R17) -/

/-- `Push(a)`: `STK[SP] <- a; SP <- SP+1`, or none when the stack holds 16 entries (R122, R123). -/
def State.push? (s : State) (a : Word) : Option State :=
  if h : s.sp.val < 16 then
    some { s with stk := s.stk.set s.sp.val a, sp := ⟨s.sp.val + 1, Nat.succ_lt_succ h⟩ }
  else none

/-- `Pop()`: the address `STK[SP-1]` and the state with `SP <- SP-1`, or none when the stack is empty (R124,
R125). The slot keeps its value (R16). -/
def State.pop? (s : State) : Option (Word × State) :=
  if h : 0 < s.sp.val then
    some (s.stk[s.sp.val - 1]'(by omega), { s with sp := ⟨s.sp.val - 1, by omega⟩ })
  else none

/-! ### Memory (R23, R40 to R50) -/

/-- The number of bytes of `MEM` (R4, R40). -/
def memBytes : Nat := 4096

/-- The number of bytes of the font region, which is 0x000 to 0x04F (R4, R28). -/
def fontBytes : Nat := 80

/-- Where the program is loaded (R4). -/
def loadAddress : Nat := 0x200

/-- What an address that the memory list does not name reads as: the reset contents with an empty ROM (R23). -/
def resetByte (p : Params) (a : Nat) : Byte := if h : a < fontBytes then p.font[a]'h else 0

/-- The byte the list holds for an address, if it names one. -/
def Memory.lookup : Memory → Nat → Option Byte
  | [], _ => none
  | (a, b) :: m, k => if a = k then some b else Memory.lookup m k

/-- Store `v` at `k` in a rising list, where `rest` is what `k` reads as when it is not listed. -/
def Memory.put (rest : Byte) (k : Nat) (v : Byte) : Memory → Memory
  | [] => if v = rest then [] else [(k, v)]
  | (a, b) :: m =>
    if k < a then (if v = rest then (a, b) :: m else (k, v) :: (a, b) :: m)
    else if k = a then (if v = rest then m else (k, v) :: m)
    else (a, b) :: Memory.put rest k v m

/-- The canonical form from address `lo` on: addresses strictly rising, below 4096, and no entry equal to what an
unlisted address reads as. -/
def Memory.wfFrom (p : Params) (lo : Nat) : Memory → Bool
  | [] => true
  | (a, b) :: m =>
    decide (lo ≤ a) && decide (a < memBytes) && decide (b ≠ resetByte p a) && Memory.wfFrom p (a + 1) m

/-- The canonical form of the memory list. -/
def Memory.wf (p : Params) (m : Memory) : Bool := Memory.wfFrom p 0 m

/-- `MEM[a]`, for an address of the 4096-byte extent. -/
def State.byteAt (s : State) (a : Nat) : Byte := (Memory.lookup s.mem a).getD (resetByte s.params a)

/-- `MEM[a] <- b` for an address of the extent, whatever the region: the write of the ROM load (R272), and that of
a program store once `FONT_STORE` has been applied. -/
def State.putByte (s : State) (a : Nat) (b : Byte) : State :=
  s.setMem (Memory.put (resetByte s.params a) a b s.mem)

/-- `MemRead(a, 1)`, bounds-checked against the 4096-byte extent (R43). -/
def State.memRead? (s : State) (a : Nat) : Option Byte := if a < memBytes then some (s.byteAt a) else none

/-- `MemWrite(a, 1, b)`, bounds-checked (R44). A byte of the font region is written under `FONT_STORE = allow`
and dropped otherwise (R47; under `fault` the instruction has raised its event before it writes). -/
def State.memWrite? (s : State) (a : Nat) (b : Byte) : Option State :=
  if a < memBytes then
    if a < fontBytes then
      match s.params.fontStore with
      | .allow => some (s.putByte a b)
      | .ignore => some s
      | .fault => some s
    else some (s.putByte a b)
  else none

/-- The `n` bytes at `a`, `a+1`, ..., in ascending order (R50); the error is the first address outside `MEM`. -/
def State.readBytes (s : State) (a : Nat) : Nat → Except Nat (List Byte)
  | 0 => .ok []
  | n + 1 =>
    match s.memRead? a with
    | none => .error a
    | some b =>
      match s.readBytes (a + 1) n with
      | .error e => .error e
      | .ok bs => .ok (b :: bs)

/-- Store bytes at `a`, `a+1`, ..., in ascending order (R50); the error is the first address outside `MEM`. -/
def State.writeBytes (s : State) (a : Nat) : List Byte → Except Nat State
  | [] => .ok s
  | b :: bs =>
    match s.memWrite? a b with
    | none => .error a
    | some t => t.writeBytes (a + 1) bs

/-! ### Inputs and outputs (R29, R30) -/

/-- The inputs of this tick: those listed first or, when none is listed, no stop signal and a free random byte and
key input (log entries 2 and 3). -/
def State.tickInput (s : State) : TickInput :=
  match s.inputs with
  | i :: _ => i
  | [] => { stop := false, rnd := Config.freeRandom s.draws, key := Config.freeKeys s.draws }

/-- Go to the next tick's inputs. -/
def State.consumeInput (s : State) : State := { s with inputs := s.inputs.tail, draws := s.draws + 1 }

/-- Hand one output to the environment. -/
def State.emit (s : State) (o : Output) : State := { s with emitted := o :: s.emitted }

/-! ### Events: the machine's exceptions (R230 to R239) -/

/-- The class of an event (R230): a fatal one stops the run, the others do not. -/
def Event.fatal : Event → Bool
  | .unknownOpcode _ _ => true
  | .memoryAccessFault _ _ _ => true
  | .stackOverflow _ _ => false
  | .stackUnderflow _ _ => false
  | .memoryOutOfBounds _ _ => false
  | .capacityExceeded _ => true

/-- `raise e`: TAKING AN EXCEPTION on this hardware (R7, R239). The event goes to the sink (R253); a fatal one sets
`RUN` to `FAULTED`. It saves nothing and transfers control nowhere (R239), and there is nothing to return from
(R241). What else the event does (a stalled `PC`, a truncated draw) is its instruction's rule. -/
def State.raise (s : State) (e : Event) : State :=
  if e.fatal then (s.emit (.event e)).setRun .faulted else s.emit (.event e)

end Sys2Proof.Machine
end

