-- ==== Sys2Proof/Machine/Reset.lean ====
section
/-! DEFINITION. Machine construction: reset with the parameters and a ROM (spec 70_reset_and_hazards.md R270 to
R273), and the placing of one instruction word for the next step. -/

namespace Sys2Proof.Machine

/-- The largest ROM, 4096 - 0x200 bytes (R4). -/
def romCapacity : Nat := 3584

/-- `Load(bytes)`: the bytes from address `a` on, in ascending order. Not a program store, so `FONT_STORE` does
not apply (R272). -/
def State.loadBytes (s : State) (a : Nat) : List Byte → State
  | [] => s
  | b :: bs => (s.putByte a b).loadBytes (a + 1) bs

/-- Reset of a block with parameters `p` (R270, R271), then the ROM load: at 0x200 when it fits (R272), else
`CapacityExceeded` with nothing loaded and `RUN = FAULTED` (R273). -/
def construct (p : Params) (rom : List Byte) : State :=
  let s := { State.reset with params := p }
  if rom.length ≤ romCapacity then s.loadBytes loadAddress rom
  else s.raise (.capacityExceeded rom.length)

/-- No stop signal at the next tick. -/
def withoutStop : List TickInput → List TickInput
  | [] => []
  | i :: rest => { i with stop := false } :: rest

/-- The group whose parameter makes the word an instruction. -/
def groupOfWord (w : Word) : Group :=
  match decodeTable w with
  | some i => i.group
  | none => .base

/-- Place the word `w` as what the very next tick fetches and runs: the machine runs, no stop is pending, `PC` is
where two bytes can be fetched, the word's group is on, and the two bytes stand at `PC` (log entry 8). At reset
only the two bytes, and the group of an extension word, change. -/
def State.placeWord (s : State) (w : Word) : State :=
  let t := { s with
    run := .running
    inputs := withoutStop s.inputs
    pc := if 0x0FFE < s.pc.toNat then 0x0200 else s.pc
    params := s.params.enable (groupOfWord w) }
  (t.putByte t.pc.toNat (bytesOfWord w).1).putByte (t.pc.toNat + 1) (bytesOfWord w).2

end Sys2Proof.Machine
end

