-- ==== Sys2Proof/Machine/Flags.lean ====
section
/-! DEFINITION. The flag computations. There is no flag register (R32): a flag is 0 or 1 written to VF (R11). -/

namespace Sys2Proof.Machine

/-- A flag as VF holds it: 1 or 0. -/
def flagByte (f : Bool) : Byte := if f then 1 else 0

/-- Carry of an addition: "the carry flag is 1 exactly when `a + b > 255`" (R158). -/
def carryOut (a b : Byte) : Bool := decide (255 < a.toNat + b.toNat)

/-- No borrow of `a - b`: "the flag is 1 exactly when `a >= b`" (R158). -/
def noBorrow (a b : Byte) : Bool := decide (b.toNat ≤ a.toNat)

/-- The bit a right shift by one moves out, `a[0]` (R151). -/
def shiftedOutRight (a : Byte) : Bool := a.getLsbD 0

/-- The bit a left shift by one moves out, `a[7]` (R153). -/
def shiftedOutLeft (a : Byte) : Bool := a.getLsbD 7

/-- The two writes of the flag-writing instructions, VF first and the result second, so that with X = 0xF the
result wins (R141). -/
def State.setFlagAndReg (s : State) (x : RegIx) (flag : Bool) (result : Byte) : State :=
  (s.setReg vf (flagByte flag)).setReg x result

end Sys2Proof.Machine
end

