-- ==== Sys2Proof/Machine/Operands.lean ====
section
/-! DEFINITION. The operand forms (R73, R170) and the address checks of the instructions that store or load
through `I`. A register operand is `State.reg`, an immediate byte is the field itself. -/

namespace Sys2Proof.Machine

/-- `zext_16(NNN)`: an address operand (R73). -/
def zextAddr (nnn : Addr12) : Word := nnn.zeroExtend 16

/-- `zext_16(b)`: a byte added to a 16-bit register (R172, R201). -/
def zextByte (b : Byte) : Word := b.zeroExtend 16

/-- The register the shifts read, chosen by `SHIFT_SOURCE` (R152). -/
def State.shiftOperand (s : State) (x y : RegIx) : Byte :=
  match s.params.shiftSource with
  | .vx => s.reg x
  | .vy => s.reg y

/-- Whether the key `V[x][3:0]` is pressed (R213). -/
def State.keyDown (s : State) (x : RegIx) : Bool := s.tickInput.key.getLsbD ((s.reg x).toNat % 16)

/-- The lowest-numbered pressed key (R216). -/
def lowestKey (key : Word) : Option Nat := (List.range 16).find? fun k => key.getLsbD k

/-- The effective address `I + k`, computed without wrap-around (R45, R170). -/
def State.ea (s : State) (k : Nat) : Nat := s.idx.toNat + k

/-- The lowest of `I`, `I+1`, ... that exceeds 0xFFF (R174, R208). -/
def State.firstOutside (s : State) : Nat := max s.idx.toNat memBytes

/-- Check (a) of R174 and R208: the event when one of the `n` addresses `I`..`I+n-1` exceeds 0xFFF. -/
def State.boundsEvent (s : State) (kind : AccessKind) (n : Nat) : Option Event :=
  if memBytes < s.ea n then some (.memoryAccessFault kind s.firstOutside s.pc) else none

/-- Check (b) of R174 and R208: the event when a store touches the font region under `FONT_STORE = fault`. The
lowest address is `I`, so a store touches the region when `I <= 0x04F`. -/
def State.fontEvent (s : State) : Option Event :=
  if s.idx.toNat < fontBytes ∧ s.params.fontStore = .fault then
    some (.memoryAccessFault .fontStore s.idx.toNat s.pc)
  else none

/-- The checks a store of `n` bytes through `I` makes before any byte is written, (a) before (b) (R174, R208). -/
def State.storeEvent (s : State) (n : Nat) : Option Event :=
  match s.boundsEvent .store n with
  | some e => some e
  | none => s.fontEvent

end Sys2Proof.Machine
end

