-- ==== Sys2Proof/Machine/ControlFlow.lean ====
section
/-! DEFINITION. Control transfer (spec 41_control_flow.md). -/

namespace Sys2Proof.Machine

/-- What an instruction's meaning answers. -/
abbrev Result := Host.Outcome State Fault Refusal

/-- `JP NNN` (R121): `PC <- zext_16(NNN)`. -/
def execJp (nnn : Addr12) (s : State) : Result := .next (s.setPc (zextAddr nnn))

/-- `CALL NNN` (R122; R123 when the stack is full: only the event, `PC` unchanged). -/
def execCall (nnn : Addr12) (s : State) : Result :=
  match s.push? (s.pc + 2) with
  | some t => .next (t.setPc (zextAddr nnn))
  | none => .next (s.raise (.stackOverflow s.pc (encode (.call nnn))))

/-- `RET` (R124; R125 when the stack is empty: only the event, `PC` unchanged). -/
def execRet (s : State) : Result :=
  match s.pop? with
  | some (a, t) => .next (t.setPc a)
  | none => .next (s.raise (.stackUnderflow s.pc (encode .ret)))

/-- `SE VX,NN` (R126). -/
def execSeImm (x : RegIx) (nn : Byte) (s : State) : Result := .next (s.skipIf (s.reg x == nn))

/-- `SNE VX,NN` (R127). -/
def execSneImm (x : RegIx) (nn : Byte) (s : State) : Result := .next (s.skipIf (s.reg x != nn))

/-- `SE VX,VY` (R128). -/
def execSeReg (x y : RegIx) (s : State) : Result := .next (s.skipIf (s.reg x == s.reg y))

/-- `SNE VX,VY` (R129). -/
def execSneReg (x y : RegIx) (s : State) : Result := .next (s.skipIf (s.reg x != s.reg y))

end Sys2Proof.Machine
end

