-- ==== Sys2Proof/Machine/Display.lean ====
section
/-! DEFINITION. The framebuffer instructions and the XOR-plot engine (spec 44_display.md). -/

namespace Sys2Proof.Machine

/-- `FB[y][x]`: the pixel at column `x`, row `y` (R180). -/
def Frame.pixel (fb : Frame) (x : Fin 64) (y : Fin 32) : Bool := (fb.get y).get x

/-- `FB[y][x] <- FB[y][x] XOR 1` (R186). -/
def Frame.invert (fb : Frame) (x : Fin 64) (y : Fin 32) : Frame :=
  fb.set y.val ((fb.get y).set x.val (!Frame.pixel fb x y))

/-- What one `DRW` holds while it runs: the framebuffer, the collision flag (R24) and whether a bit was plotted. -/
structure Plot where
  fb : Frame
  coll : Bool
  plotted : Bool
deriving DecidableEq, Repr

/-- `x mod 64`. -/
def wrapX (x : Nat) : Fin 64 := ⟨x % 64, Nat.mod_lt _ (by decide)⟩

/-- `y mod 32`. -/
def wrapY (y : Nat) : Fin 32 := ⟨y % 32, Nat.mod_lt _ (by decide)⟩

/-- Plot one 1 bit at column `x`, row `y`, wrapped per axis; the collision test reads the pixel before the XOR
(R185, R186). -/
def plotBit (x y : Nat) (q : Plot) : Plot :=
  { fb := Frame.invert q.fb (wrapX x) (wrapY y)
    coll := q.coll || Frame.pixel q.fb (wrapX x) (wrapY y)
    plotted := true }

/-- Plot one sprite byte at column `x`, row `y`: bit column c is bit 7-c of the byte, a 0 bit leaves its pixel
(R183). -/
def plotRow (b : Byte) (x y : Nat) (q : Plot) : Plot :=
  (List.range 8).foldl (fun q c => if b.getMsbD c then plotBit (x + c) y q else q) q

/-- The row loop of R182 from row `r` on, `n` rows left: the plot, and the first row address outside `MEM`, which is
tested before the read (R43) and ends the loop (R184). -/
def drawRows (s : State) (x y : Nat) : (n r : Nat) → Plot → Plot × Option Nat
  | 0, _, q => (q, none)
  | n + 1, r, q =>
    if memBytes ≤ s.ea r then (q, some (s.ea r))
    else drawRows s x y n (r + 1) (plotRow (s.byteAt (s.ea r)) x (y + r) q)

/-- The whole draw of `DRW VX,VY,N`: the coordinates are read before VF is written (R182, R187). -/
def State.draw (s : State) (x y : RegIx) (n : Nat) : Plot × Option Nat :=
  drawRows s (s.reg x).toNat (s.reg y).toNat n 0 { fb := s.fb, coll := false, plotted := false }

/-- The event of a truncated draw (R184). -/
def State.raiseIfOutside (s : State) : Option Nat → State
  | none => s
  | some a => s.raise (.memoryOutOfBounds a s.pc)

/-- `CLS` (R181): every pixel off, `DIRTY` set. -/
def execCls (s : State) : Result := .next ((s.setFb blankFrame).setDirty true).advance

/-- `DRW VX,VY,N` (R182 to R188). -/
def execDrw (x y : RegIx) (n : Fin 16) (s : State) : Result :=
  let d := s.draw x y n.val
  .next ((((s.raiseIfOutside d.2).setFb d.1.fb).setReg vf (flagByte d.1.coll)).setDirty
    (s.dirty || d.1.plotted)).advance

end Sys2Proof.Machine
end

