-- ==== Sys2Proof/Machine/IndexMemory.lean ====
section
/-! DEFINITION. Index register and memory store instructions (spec 43_index_memory.md). -/

namespace Sys2Proof.Machine

/-- `LD I,NNN` (R171). -/
def execLdI (nnn : Addr12) (s : State) : Result := .next (s.setIdx (zextAddr nnn)).advance

/-- `ADD I,VX` (R172): modulo 65536, no flag. -/
def execAddI (x : RegIx) (s : State) : Result := .next (s.setIdx (s.idx + zextByte (s.reg x))).advance

/-- The three decimal digits of a byte, hundreds first (R173). -/
def bcdDigits (b : Byte) : List Byte :=
  [BitVec.ofNat 8 (b.toNat / 100), BitVec.ofNat 8 (b.toNat / 10 % 10), BitVec.ofNat 8 (b.toNat % 10)]

/-- Store bytes at `I`, `I+1`, ... once the checks of R174 or R208 have passed, then go on with `k`. -/
def storeAtIdx (s : State) (bytes : List Byte) (k : State → State) : Result :=
  match s.storeEvent bytes.length with
  | some e => .next (s.raise e)
  | none =>
    match s.writeBytes (s.ea 0) bytes with
    | .error a => .fault (.memoryContract a)
    | .ok t => .next (k t)

/-- `LD B,VX` (R173, R174). -/
def execLdB (x : RegIx) (s : State) : Result := storeAtIdx s (bcdDigits (s.reg x)) State.advance

end Sys2Proof.Machine
end

