-- ==== Sys2Proof/Machine/Extension.lean ====
section
/-! DEFINITION. The extension instructions (spec 45_extension_ops.md). The gate of R200 stands in `decode`: a word
whose group is off never reaches a meaning of this file (log entry 9). -/

namespace Sys2Proof.Machine

/-- `JP V0,NNN` (R201). -/
def execJpV0 (nnn : Addr12) (s : State) : Result := .next (s.setPc (zextAddr nnn + zextByte (s.reg 0)))

/-- `LD VX,DT` (R202): the value before this tick's decrement. -/
def execLdVxDt (x : RegIx) (s : State) : Result := .next (s.setReg x s.dt).advance

/-- `LD DT,VX` (R203). -/
def execLdDtVx (x : RegIx) (s : State) : Result := .next (s.setDt (s.reg x)).advance

/-- `LD ST,VX` (R204). -/
def execLdStVx (x : RegIx) (s : State) : Result := .next (s.setSt (s.reg x)).advance

/-- The address of the glyph of a digit (R205), a free value for a byte above 0x0F (U8, log entry 4). -/
def State.glyphAddress (s : State) (b : Byte) : Word :=
  if b.toNat ≤ 0x0F then BitVec.ofNat 16 (5 * b.toNat) else Config.freeGlyphAddress s.draws

/-- `LD F,VX` (R205). -/
def execLdF (x : RegIx) (s : State) : Result := .next (s.setIdx (s.glyphAddress (s.reg x))).advance

/-- The last step of a block transfer: `I <- u16(I + X + 1)` with `REGMEM_I_INCREMENT`, else nothing (R209). -/
def State.bumpIdx (s : State) (x : RegIx) : State :=
  if s.params.regmemIIncrement then s.setIdx (s.idx + BitVec.ofNat 16 (x.val + 1)) else s

/-- `LD [I],VX` (R206, R208, R209). -/
def execLdMemVx (x : RegIx) (s : State) : Result :=
  storeAtIdx s (s.v.toList.take (x.val + 1)) fun t => (t.bumpIdx x).advance

/-- `LD VX,[I]` (R207, R208 (a), R209). -/
def execLdVxMem (x : RegIx) (s : State) : Result :=
  match s.boundsEvent .load (x.val + 1) with
  | some e => .next (s.raise e)
  | none =>
    match s.readBytes (s.ea 0) (x.val + 1) with
    | .error a => .fault (.memoryContract a)
    | .ok bytes => .next ((s.setV (writeRegs s.v 0 bytes)).bumpIdx x).advance

/-- `SKP VX` (R214). -/
def execSkp (x : RegIx) (s : State) : Result := .next (s.skipIf (s.keyDown x))

/-- `SKNP VX` (R215). -/
def execSknp (x : RegIx) (s : State) : Result := .next (s.skipIf (!s.keyDown x))

/-- `LD VX,K` (R216): with no key pressed nothing is written and `PC` stays. -/
def State.takeKey (s : State) (x : RegIx) : State :=
  match lowestKey s.tickInput.key with
  | none => s
  | some k => (s.setReg x (BitVec.ofNat 8 k)).advance

/-- `LD VX,K` (R216). -/
def execLdVxK (x : RegIx) (s : State) : Result := .next (s.takeKey x)

end Sys2Proof.Machine
end

