-- ==== Sys2Proof/Machine/RegisterAlu.lean ====
section
/-! DEFINITION. Register, arithmetic, logic, shift and random instructions (spec 42_register_alu.md). Every operand
is read from the state before the instruction (R141); each ends with `PC <- u16(PC+2)` (R140). -/

namespace Sys2Proof.Machine

/-- `LD VX,NN` (R142). -/
def execLdImm (x : RegIx) (nn : Byte) (s : State) : Result := .next (s.setReg x nn).advance

/-- `ADD VX,NN` (R143): wraps modulo 256, VF not written as a flag. -/
def execAddImm (x : RegIx) (nn : Byte) (s : State) : Result := .next (s.setReg x (s.reg x + nn)).advance

/-- `LD VX,VY` (R144). -/
def execLdReg (x y : RegIx) (s : State) : Result := .next (s.setReg x (s.reg y)).advance

/-- `OR VX,VY` (R145). -/
def execOrReg (x y : RegIx) (s : State) : Result := .next (s.setReg x (s.reg x ||| s.reg y)).advance

/-- `AND VX,VY` (R146). -/
def execAndReg (x y : RegIx) (s : State) : Result := .next (s.setReg x (s.reg x &&& s.reg y)).advance

/-- `XOR VX,VY` (R147). -/
def execXorReg (x y : RegIx) (s : State) : Result := .next (s.setReg x (s.reg x ^^^ s.reg y)).advance

/-- `ADD VX,VY` (R148). -/
def execAddReg (x y : RegIx) (s : State) : Result :=
  .next (s.setFlagAndReg x (carryOut (s.reg x) (s.reg y)) (s.reg x + s.reg y)).advance

/-- `SUB VX,VY` (R149): `V[X] - V[Y]`. -/
def execSubReg (x y : RegIx) (s : State) : Result :=
  .next (s.setFlagAndReg x (noBorrow (s.reg x) (s.reg y)) (s.reg x - s.reg y)).advance

/-- `SUBN VX,VY` (R150): `V[Y] - V[X]`. -/
def execSubnReg (x y : RegIx) (s : State) : Result :=
  .next (s.setFlagAndReg x (noBorrow (s.reg y) (s.reg x)) (s.reg y - s.reg x)).advance

/-- `SHR VX` (R151). -/
def execShr (x y : RegIx) (s : State) : Result :=
  .next (s.setFlagAndReg x (shiftedOutRight (s.shiftOperand x y)) (s.shiftOperand x y >>> 1)).advance

/-- `SHL VX` (R153). -/
def execShl (x y : RegIx) (s : State) : Result :=
  .next (s.setFlagAndReg x (shiftedOutLeft (s.shiftOperand x y)) (s.shiftOperand x y <<< 1)).advance

/-- `RND VX,NN` (R157): `V[X] <- rnd AND NN`. -/
def execRnd (x : RegIx) (nn : Byte) (s : State) : Result := .next (s.setReg x (s.tickInput.rnd &&& nn)).advance

end Sys2Proof.Machine
end

