-- ==== Sys2Proof/Machine/Tick.lean ====
section
/-! DEFINITION. The tick (spec 40_cycle.md R100): stop check, fetch, decode, execute, timer decrement, render
notify, as one transition. -/

namespace Sys2Proof.Machine

/-- Fetch (R102, R103): the big-endian word at `PC`, or none when a byte of it lies outside the 4096-byte extent.
There is no alignment condition (R49) and no wrap-around. -/
def State.fetchWord (s : State) : Option Word :=
  if 0x0FFE < s.pc.toNat then none
  else some (wordOfBytes (s.byteAt s.pc.toNat) (s.byteAt (s.pc.toNat + 1)))

/-- The decrement of a timer, clamped at 0 (R244, R245). -/
def countDown (t : Byte) : Byte := if t = 0 then 0 else t - 1

/-- Timer stage (R107, R244 to R246): both timers once; the sound trigger when `ST` goes from 1 to 0. -/
def State.timerStage (s : State) : State :=
  let t := if s.st = 1 then s.emit .soundTrigger else s
  (t.setDt (countDown s.dt)).setSt (countDown s.st)

/-- Render stage (R108, R252): a dirty framebuffer is emitted as a copy and `DIRTY` cleared. -/
def State.renderStage (s : State) : State :=
  if s.dirty then (s.emit (.frame s.fb)).setDirty false else s

/-- The rest of the tick after execute: skipped when a fatal event ended it (R106). -/
def State.finishTick (s : State) : State :=
  match s.run with
  | .running => s.timerStage.renderStage.consumeInput
  | .stopped => s
  | .faulted => s

/-- Decode and execute the fetched word (R104, R105), with `Unknown` as R232. -/
def State.runWord (s : State) (w : Word) : Result :=
  match decode s.params w with
  | .unknown u => .next (s.raise (.unknownOpcode u s.pc)).finishTick
  | .instr i =>
    match exec i s with
    | .next t => .next t.finishTick
    | .fault r => .fault r
    | .refused r => .refused r

/-- One tick (R100). A halted machine's tick changes nothing and emits nothing (R109). -/
def State.tick (s : State) : Result :=
  match s.run with
  | .stopped => .next s
  | .faulted => .next s
  | .running =>
    if s.tickInput.stop then .next (s.setRun .stopped)
    else
      match s.fetchWord with
      | none => .next (s.raise (.memoryAccessFault .fetch s.pc.toNat s.pc)).finishTick
      | some w => s.runWord w

end Sys2Proof.Machine
end

