-- ==== Sys2Proof/Machine/Step.lean ====
section
/-! DEFINITION. One step of the machine is one tick (spec 00_scope.md R8). -/

namespace Sys2Proof.Machine

/-- One step: one tick (R8, R100). -/
def step (s : State) : Host.Outcome State Fault Refusal := s.tick

/-- `s` with the instruction of the `nbits` low bits of `w` placed where the next step fetches it. -/
def State.withFetchWord (s : State) (nbits w : Nat) : State := s.placeWord (BitVec.ofNat 16 (w % 2 ^ nbits))

end Sys2Proof.Machine
end

