-- ==== Sys2Proof/Safety.lean ====
section
/-! DEFINITION. What claims about GATE-CORE are stated in: safe states, when a tick runs an instruction, frames, the
sprite of a draw, the invariants, and reachability. -/

namespace Sys2Proof

/-- The general register that the field X of an instruction names (R71). -/
def Instr.xField : Instr → Option RegIx
  | .cls | .ret | .jp _ | .call _ | .ldI _ | .jpV0 _ => none
  | .seImm x _ | .sneImm x _ | .ldImm x _ | .addImm x _ | .rnd x _ => some x
  | .seReg x _ _ | .sneReg x _ _ | .drw x _ _ => some x
  | .ldReg x _ | .orReg x _ | .andReg x _ | .xorReg x _ | .addReg x _ | .subReg x _ | .subnReg x _ => some x
  | .shr x _ | .shl x _ => some x
  | .addI x | .ldB x | .skp x | .sknp x | .ldVxDt x | .ldVxK x | .ldDtVx x | .ldStVx x | .ldF x => some x
  | .ldMemVx x | .ldVxMem x => some x

/-- The instructions of the column "writes VF as flag" of the table of R12. -/
def Instr.writesFlag : Instr → Bool
  | .addReg _ _ | .subReg _ _ | .subnReg _ _ | .shr _ _ | .shl _ _ | .drw _ _ _ => true
  | .cls | .ret | .jp _ | .call _ | .ldI _ | .jpV0 _ => false
  | .seImm _ _ | .sneImm _ _ | .ldImm _ _ | .addImm _ _ | .rnd _ _ => false
  | .seReg _ _ _ | .sneReg _ _ _ | .ldReg _ _ | .orReg _ _ | .andReg _ _ | .xorReg _ _ => false
  | .addI _ | .ldB _ | .skp _ | .sknp _ | .ldVxDt _ | .ldVxK _ | .ldDtVx _ | .ldStVx _ | .ldF _ => false
  | .ldMemVx _ | .ldVxMem _ => false

namespace Machine

/-- A safe state: no fatal event has ended the run. R111: a `FAULTED` state is a failure, not a successful end. -/
abbrev State.Safe (s : State) : Prop := s.run ≠ .faulted

/-- The next tick of `s` executes `i`: the machine runs, no stop signal is pending, the word at `PC` can be fetched
and decodes to `i` (R100 to R104). -/
structure State.ReadyFor (s : State) (i : Instr) : Prop where
  running : s.run = .running
  noStop : s.tickInput.stop = false
  fetchable : s.pc.toNat ≤ 0x0FFE
  decoded : decode s.params (wordOfBytes (s.byteAt s.pc.toNat) (s.byteAt (s.pc.toNat + 1))) = .instr i

/-! ### Frames: what an instruction leaves as it was -/

/-- Every byte of memory reads as before. -/
def SameMemory (s t : State) : Prop := ∀ a : Nat, t.byteAt a = s.byteAt a

/-- Nothing but `PC` changes. -/
def OnlyPc (s t : State) : Prop := t = { s with pc := t.pc } ∧ SameMemory s t

/-- Nothing but `PC` and the registers named changes. -/
def OnlyRegsPc (regs : List RegIx) (s t : State) : Prop :=
  t = { s with v := t.v, pc := t.pc } ∧ (∀ r : RegIx, r ∉ regs → t.reg r = s.reg r) ∧ SameMemory s t

/-- Nothing but `PC` and `I` changes. -/
def OnlyIdxPc (s t : State) : Prop := t = { s with idx := t.idx, pc := t.pc } ∧ SameMemory s t

/-- `PC` is `u16(PC + k)` (R14). -/
def PcPlus (k : Nat) (s t : State) : Prop := t.pc.toNat = (s.pc.toNat + k) % 65536

/-- The state after a fatal event: `RUN` is `FAULTED`, the event is emitted, nothing else changes (R106, R239). -/
def State.haltedBy (s : State) (e : Event) : State :=
  { s with run := .faulted, emitted := .event e :: s.emitted }

/-- The state after an event that changes nothing but the outputs (R123, R125). -/
def State.reporting (s : State) (e : Event) : State := { s with emitted := .event e :: s.emitted }

/-- Whether an output is a frame (R252). -/
def Output.isFrame : Output → Bool
  | .frame _ => true
  | .event _ => false
  | .soundTrigger => false

/-- Calls to the given addresses, one after the other, with no return between (R130). -/
def execCalls : List Addr12 → State → Result
  | [], s => .next s
  | nnn :: rest, s =>
    match exec (.call nnn) s with
    | .next t => execCalls rest t
    | .fault r => .fault r
    | .refused r => .refused r

/-! ### The bytes of a block store -/

/-- The byte at `a` after the given bytes have been stored at `I`, `I+1`, ...: the one stored there, if the block has
one for `a` and `a` lies outside the font region or `FONT_STORE` is `allow` (R47), else the byte of before. -/
def State.byteAfterStore (s : State) (bytes : List Byte) (a : Nat) : Byte :=
  if s.idx.toNat ≤ a ∧ (0x50 ≤ a ∨ s.params.fontStore = .allow) then
    (bytes[a - s.idx.toNat]?).getD (s.byteAt a)
  else s.byteAt a

/-! ### The sprite of a draw (R183 to R185) -/

/-- Row `r`, bit column `c` of the sprite at `I` is a 1 bit of an `n`-row draw: the row is one of the draw's and its
byte lies inside `MEM`; the leftmost column is bit 7. -/
def State.spriteBit (s : State) (n r c : Nat) : Prop :=
  r < n ∧ s.idx.toNat + r ≤ 0xFFF ∧ c < 8 ∧ (s.byteAt (s.idx.toNat + r)).getLsbD (7 - c) = true

/-- A 1 bit of the sprite lands on the pixel at column `px`, row `py`: columns wrap modulo 64, rows modulo 32. -/
def State.plotsAt (s : State) (x y : RegIx) (n : Nat) (px : Fin 64) (py : Fin 32) : Prop :=
  ∃ r c : Nat, s.spriteBit n r c ∧ ((s.reg x).toNat + c) % 64 = px.val ∧ ((s.reg y).toNat + r) % 32 = py.val

/-! ### Invariants -/

/-- The memory list is in its canonical form. -/
abbrev State.MemCanonical (s : State) : Prop := Memory.wf s.params s.mem = true

/-- At a tick boundary `DIRTY` is 0 (R21). -/
abbrev State.Clean (s : State) : Prop := s.dirty = false

/-- The font region holds `FONT` (R28), the invariant that `FONT_STORE` keeps unless it is `allow` (R47). -/
def State.FontIntact (s : State) : Prop := ∀ a : Nat, (h : a < 80) → s.byteAt a = s.params.font[a]

/-- Every call-stack slot holds 0x1000 at most, what a `CALL` that could be fetched pushes at most (R124), and
`PC` is at most 0x10FE, what `JP V0,NNN` writes at most (R201); so no 16-bit wrap of `PC` is ever fetched (R14). -/
def State.PcBounded (s : State) : Prop :=
  s.pc.toNat ≤ 0x10FE ∧ ∀ k : Fin 16, (s.stk.get k).toNat ≤ 0x1000

/-- The invariant of every tick boundary. -/
structure State.Inv (s : State) : Prop where
  memCanonical : s.MemCanonical
  clean : s.Clean
  fontIntact : s.params.fontStore ≠ .allow → s.FontIntact
  pcBounded : s.PcBounded

/-! ### Reachability -/

/-- What the environment can do between two ticks: present other inputs (R9, R29). It touches nothing else (R42,
R53). -/
def State.present (s : State) (inputs : List TickInput) : State := { s with inputs := inputs }

/-- The states a block with parameters `p` and a ROM reaches, under any inputs the environment presents. -/
inductive Reachable (p : Params) (rom : List Byte) : State → Prop where
  | construct : Reachable p rom (Machine.construct p rom)
  | present (s : State) (inputs : List TickInput) : Reachable p rom s → Reachable p rom (s.present inputs)
  | tick (s t : State) : Reachable p rom s → step s = .next t → Reachable p rom t

end Machine

end Sys2Proof
end

