-- ==== Sys2Proof/Certificates/Slice0/Obligations.lean ====
section
/-! DEFINITION. The statements for the provers, in the order of the spec's files. Statements about `exec` hold for
every value of the parameters (`s.params`) and of the inputs; an extension instruction is stated for a block that has
its group (R200). -/

open Sys2Proof Sys2Proof.Machine

/-! ### Encoding (30_encoding.md) -/

/-- For every instruction the block has, decoding its word gives it back, whatever its operands. The numbers are the
spec's own adoption D28 (log entry 11). -/
def Obligations.DecodeInvertsEncode : Prop :=
  ∀ (p : Params) (i : Instr), i.wellFormed p = true → decode p (encode i) = .instr i

/-- A word decodes to at most the instruction whose word it is, and only to one the block has. The numbers are the
spec's own adoption D28 (log entry 11). -/
def Obligations.EncodeInvertsDecode : Prop :=
  ∀ (p : Params) (w : Word) (i : Instr), decode p w = .instr i → encode i = w ∧ i.wellFormed p = true

/-- R74: every word decodes to the instruction of exactly one row of R75 and R76, the row of that instruction's mnemonic
and group, or, if it matches none or a row whose group is off, to `Unknown`. The rows are the spec's own adoption D28
(log entry 11). -/
def Obligations.EveryWordMatchesOneRowOrIsUnknown : Prop :=
  ∀ (p : Params) (w : Word),
    (∃ i r, decode p w = .instr i ∧ opcodeRows.filter (fun q => q.matchesWord w) = [r] ∧ r.mnemonic = i.mnemonic ∧
      r.group = i.group ∧ r.group.enabled p = true) ∨
    (decode p w = .unknown w ∧ ∀ r ∈ opcodeRows, r.matchesWord w = true → r.group.enabled p = false)

/-- R79: the `Unknown` words, by family, under every setting of the groups. Rests on the spec's own decisions D2, D3
and D28 (log entry 11). -/
def Obligations.UnknownWordsByFamily : Prop :=
  ∀ (p : Params) (w : Word), decode p w = .unknown w ↔
    (fieldF w = 0x0 ∧ w ≠ 0x00E0 ∧ w ≠ 0x00EE) ∨
    (fieldF w = 0x8 ∧ fieldN w ∈ [0x8#4, 0x9#4, 0xA#4, 0xB#4, 0xC#4, 0xD#4, 0xF#4]) ∨
    (fieldF w = 0xB ∧ p.extJumpV0 = false) ∨
    (fieldF w = 0xE ∧ (p.extKey = false ∨ fieldNN w ∉ [0x9E#8, 0xA1#8])) ∨
    (fieldF w = 0xF ∧ fieldNN w ∉ [0x1E#8, 0x33#8] ∧
      (p.extTimer = false ∨ fieldNN w ∉ [0x07#8, 0x15#8, 0x18#8]) ∧
      (p.extKey = false ∨ fieldNN w ≠ 0x0A#8) ∧ (p.extFont = false ∨ fieldNN w ≠ 0x29#8) ∧
      (p.extRegmem = false ∨ fieldNN w ∉ [0x55#8, 0x65#8]))

/-- One word of each of the sixteen families, written out from the patterns of R75 and R76, decodes to its instruction,
the first byte in memory being the high one; and 0x01E0, of family 0, is `Unknown`. The patterns are the spec's own
adoption D28 (log entry 11). -/
def Obligations.SampleWordsDecode : Prop :=
  decodeBytes Params.everyGroup 0x00 0xE0 = .instr .cls ∧
  decodeBytes Params.everyGroup 0x1A 0xBC = .instr (.jp 0xABC) ∧
  decodeBytes Params.everyGroup 0x22 0x0A = .instr (.call 0x20A) ∧
  decodeBytes Params.everyGroup 0x33 0x2A = .instr (.seImm 3 0x2A) ∧
  decodeBytes Params.everyGroup 0x43 0x2B = .instr (.sneImm 3 0x2B) ∧
  decodeBytes Params.everyGroup 0x51 0x27 = .instr (.seReg 1 2 7) ∧
  decodeBytes Params.everyGroup 0x6A 0x2F = .instr (.ldImm 0xA 0x2F) ∧
  decodeBytes Params.everyGroup 0x72 0x20 = .instr (.addImm 2 0x20) ∧
  decodeBytes Params.everyGroup 0x8A 0xB4 = .instr (.addReg 0xA 0xB) ∧
  decodeBytes Params.everyGroup 0x91 0x20 = .instr (.sneReg 1 2 0) ∧
  decodeBytes Params.everyGroup 0xA2 0xF0 = .instr (.ldI 0x2F0) ∧
  decodeBytes Params.everyGroup 0xB3 0x00 = .instr (.jpV0 0x300) ∧
  decodeBytes Params.everyGroup 0xC3 0x0F = .instr (.rnd 3 0x0F) ∧
  decodeBytes Params.everyGroup 0xD0 0x15 = .instr (.drw 0 1 5) ∧
  decodeBytes Params.everyGroup 0xE1 0x9E = .instr (.skp 1) ∧
  decodeBytes Params.everyGroup 0xF7 0x33 = .instr (.ldB 7) ∧
  decodeBytes Params.everyGroup 0x01 0xE0 = .unknown 0x01E0

/-- R200: when a group's parameter is false, each of its words decodes to `Unknown`. That a group may be off is the
spec's own decision D2 (log entry 26). -/
def Obligations.GroupOffWordsAreUnknown : Prop :=
  ∀ (p : Params) (i : Instr), i.wellFormed p = false → decode p (encode i) = .unknown (encode i)

/-! ### The tick (40_cycle.md, 60_exceptions.md) -/

/-- A step runs the decoded instruction (R100, R105): the tick is `exec` of it, which answers a next state always
(`EveryStepHasANextState`), then the timer stage, the render stage and the move to the next inputs, unless a fatal
event has ended the run (R106). That a fatal event skips the two stages is the spec's own decision D13 (log entry 16).
-/
def Obligations.StepRunsTheDecodedInstruction : Prop :=
  ∀ (s t : State) (i : Instr), s.ReadyFor i → exec i s = .next t →
    step s = .next (if t.run = .running then t.timerStage.renderStage.consumeInput else t)

/-- R109: a halted machine's tick changes nothing and emits nothing. -/
def Obligations.HaltedTickChangesNothing : Prop :=
  ∀ s : State, s.run = .stopped ∨ s.run = .faulted → step s = .next s

/-- R101: a stop signal sets `RUN` to `STOPPED` and the tick does nothing else. `RUN` and the moment of sampling are
the spec's own decision D18 (log entry 22). -/
def Obligations.StopSignalStopsTheMachine : Prop :=
  ∀ s : State, s.run = .running → s.tickInput.stop = true → step s = .next { s with run := .stopped }

/-- R103: a fetch with `PC > 0x0FFE` raises the fatal `MemoryAccessFault(fetch, PC)` and nothing else happens. The
event is the spec's own decision D10 (log entry 18). -/
def Obligations.FetchOutsideMemoryIsFatal : Prop :=
  ∀ s : State, s.run = .running → s.tickInput.stop = false → s.pc.toNat > 0x0FFE →
    step s = .next (s.haltedBy (.memoryAccessFault .fetch s.pc.toNat s.pc))

/-- R232: an unknown word raises the fatal `UnknownOpcode(w, PC)`; no other state is written, and no later tick does
anything, so the event is emitted exactly once. That the timers stay is the spec's own decision D13 (log entry 16). -/
def Obligations.UnknownWordIsFatal : Prop :=
  ∀ (s : State) (w : Word), s.run = .running → s.tickInput.stop = false → s.pc.toNat ≤ 0x0FFE →
    wordOfBytes (s.byteAt s.pc.toNat) (s.byteAt (s.pc.toNat + 1)) = w → decode s.params w = .unknown w →
    ∀ n : Nat, Host.Core.run core (n + 1) s = .next (s.haltedBy (.unknownOpcode w s.pc))

/-- R106: the state after a fatal tick is the state before it except for `RUN` (and the event emitted); after a
non-fatal event of an instruction the timer stage and the render stage follow. That a fatal event skips the two stages
is the spec's own decision D13 (log entry 16). -/
def Obligations.FatalTickChangesOnlyRun : Prop :=
  (∀ s t : State, s.run = .running → step s = .next t → t.run = .faulted →
    ∃ e : Event, e.fatal = true ∧ t = s.haltedBy e) ∧
  (∀ (s u : State) (i : Instr) (e : Event), s.ReadyFor i → exec i s = .next u → e.fatal = false →
    u.emitted = .event e :: s.emitted → step s = .next u.timerStage.renderStage.consumeInput)

/-- R113: a tick emits at most one instruction event, then at most one sound trigger, then at most one frame. -/
def Obligations.TickEmitsEventThenTriggerThenFrame : Prop :=
  ∀ s t : State, step s = .next t → ∃ (e : Option Event) (trigger : Bool) (f : Option Frame),
    t.emitted = (f.map Output.frame).toList ++ ((if trigger then [Output.soundTrigger] else []) ++
      ((e.map Output.event).toList ++ s.emitted))

/-- R244, R245: in every tick that no fatal event ends, each timer counts down by one after the instruction, clamped
at 0, from the value the instruction left in it, which is the one it found unless it is the timer's own load. -/
def Obligations.TimersCountDownEachTick : Prop :=
  ∀ (s u : State) (i : Instr), s.ReadyFor i → exec i s = .next u → u.run = .running →
    ∃ t, step s = .next t ∧ t.dt.toNat = u.dt.toNat - 1 ∧ t.st.toNat = u.st.toNat - 1 ∧
      ((∀ x, i ≠ .ldDtVx x) → u.dt = s.dt) ∧ ((∀ x, i ≠ .ldStVx x) → u.st = s.st)

/-- R246: the sound trigger is emitted in the tick whose decrement takes `ST` from 1 to 0, once, and in no other. -/
def Obligations.SoundTriggerFiresFromOneToZero : Prop :=
  ∀ s t : State, step s = .next t → ∃ news : List Output, t.emitted = news ++ s.emitted ∧
    news.count Output.soundTrigger ≤ 1 ∧
    (Output.soundTrigger ∈ news ↔ ∃ i u, s.ReadyFor i ∧ exec i s = .next u ∧ u.run = .running ∧ u.st = 1 ∧ t.st = 0)

/-- R252: a frame is emitted for every `CLS` and for every `DRW` that plotted at least one bit, and at no other
time, at most one per tick; it is a copy of the pixels after the tick's instruction, and `DIRTY` is clear after the
tick. -/
def Obligations.FrameEmittedByClsOrPlottingDrw : Prop :=
  ∀ s t : State, s.Clean → step s = .next t → ∃ news : List Output, t.emitted = news ++ s.emitted ∧ t.Clean ∧
    (∀ f, Output.frame f ∈ news → f = t.fb) ∧ news.countP Output.isFrame ≤ 1 ∧
    ((∃ f, Output.frame f ∈ news) ↔
      s.ReadyFor .cls ∨ ∃ x y n, s.ReadyFor (.drw x y n) ∧ ∃ r c, s.spriteBit n.val r c)

/-- Every tick has a next state, and so has every instruction in every state: no step ends in a fault, the one for the
contract of R43 and R44 included, and no instruction is refused. That every event is a next state is the model's
reading (log entries 6 and 21). -/
def Obligations.EveryStepHasANextState : Prop :=
  (∀ s : State, ∃ t, step s = .next t) ∧ (∀ (i : Instr) (s : State), ∃ t, exec i s = .next t)

/-- R282: a `CALL` at depth 16 or a `RET` at depth 0 never recovers. With no stop signal presented, after any number
of ticks only the timers have moved, by one a tick, and the event has been emitted once a tick. The payload is the
spec's own decision D16 (log entry 18), the listing of inputs the model's (log entry 2). -/
def Obligations.StackMisuseNeverRecovers : Prop :=
  ∀ (s : State) (i : Instr) (e : Event), s.ReadyFor i → s.Clean →
    ((∃ nnn, i = .call nnn ∧ s.sp = 16 ∧ e = .stackOverflow s.pc (encode i)) ∨
      (i = .ret ∧ s.sp = 0 ∧ e = .stackUnderflow s.pc (encode i))) →
    (∀ inp ∈ s.inputs, inp.stop = false) →
    ∀ n : Nat, ∃ t, Host.Core.run core n s = .next t ∧
      t = { s with dt := t.dt, st := t.st, emitted := t.emitted, inputs := s.inputs.drop n, draws := s.draws + n } ∧
      t.dt.toNat = s.dt.toNat - n ∧ t.st.toNat = s.st.toNat - n ∧
      t.emitted.filter (fun o => o != .soundTrigger) =
        List.replicate n (.event e) ++ s.emitted.filter (fun o => o != .soundTrigger)

/-! ### Control transfer (41_control_flow.md) -/

/-- R121: `JP NNN` sets `PC` to the zero-extended address and changes nothing else. -/
def Obligations.JpSetsPcAlone : Prop :=
  ∀ (nnn : Addr12) (s : State), ∃ t, exec (.jp nnn) s = .next t ∧ t.pc.toNat = nnn.toNat ∧ OnlyPc s t

/-- R122: `CALL NNN` below depth 16 pushes `u16(PC+2)` and sets `PC`; nothing else changes. -/
def Obligations.CallPushesTheReturnAddress : Prop :=
  ∀ (nnn : Addr12) (s : State), s.sp.val < 16 → ∃ t, exec (.call nnn) s = .next t ∧ t.pc.toNat = nnn.toNat ∧
    t.sp.val = s.sp.val + 1 ∧
    (∀ k : Fin 16, k.val = s.sp.val → (t.stk.get k).toNat = (s.pc.toNat + 2) % 65536) ∧
    (∀ k : Fin 16, k.val ≠ s.sp.val → t.stk.get k = s.stk.get k) ∧
    t = { s with pc := t.pc, sp := t.sp, stk := t.stk } ∧ SameMemory s t

/-- R123, R125: `CALL NNN` at depth 16 raises `StackOverflow(PC, w)` and `RET` at depth 0 `StackUnderflow(PC, w)`;
nothing is written, `PC` included, and the run goes on. The payload is the spec's own decision D16 (log entry 18). -/
def Obligations.StackMisuseOnlyReports : Prop :=
  ∀ (p : Params) (w : Word) (s : State),
    (∀ nnn, decode p w = .instr (.call nnn) → s.sp.val = 16 →
      exec (.call nnn) s = .next (s.reporting (.stackOverflow s.pc w))) ∧
    (decode p w = .instr .ret → s.sp.val = 0 → exec .ret s = .next (s.reporting (.stackUnderflow s.pc w)))

/-- R124: `RET` above depth 0 pops the call stack into `PC`; nothing else changes. That the slot keeps its value is the
spec's own decision D22 (log entry 20). -/
def Obligations.RetPopsIntoPc : Prop :=
  ∀ s : State, 0 < s.sp.val → ∃ t, exec .ret s = .next t ∧ t.sp.val + 1 = s.sp.val ∧
    (∀ k : Fin 16, k.val + 1 = s.sp.val → t.pc = s.stk.get k) ∧ t = { s with pc := t.pc, sp := t.sp } ∧
    SameMemory s t

/-- R130: a call then a return gives `PC = u16(p+2)` and the call depth of before; and from depth 0 up to sixteen
calls with no return all succeed. -/
def Obligations.CallThenRetIsAnIdentityOnPc : Prop :=
  (∀ (nnn : Addr12) (s u : State), s.sp.val < 16 → exec (.call nnn) s = .next u →
    ∃ t, exec .ret u = .next t ∧ PcPlus 2 s t ∧ t.sp = s.sp) ∧
  (∀ (calls : List Addr12) (s : State), s.sp.val = 0 → calls.length ≤ 16 →
    ∃ t, execCalls calls s = .next t ∧ t.sp.val = calls.length)

/-- R126, R127: the skips that compare a register with an immediate. -/
def Obligations.SkipsOnAnImmediate : Prop :=
  ∀ (x : RegIx) (nn : Byte) (s : State),
    (∃ t, exec (.seImm x nn) s = .next t ∧ OnlyPc s t ∧ PcPlus (if (s.reg x).toNat = nn.toNat then 4 else 2) s t) ∧
    (∃ t, exec (.sneImm x nn) s = .next t ∧ OnlyPc s t ∧ PcPlus (if (s.reg x).toNat = nn.toNat then 2 else 4) s t)

/-- R128, R129, R78: the skips that compare two registers, whatever the ignored nibble. That the nibble is ignored is
the spec's own decision D4 (log entry 13). -/
def Obligations.SkipsOnTwoRegisters : Prop :=
  ∀ (x y : RegIx) (ign : Nibble) (s : State),
    (∃ t, exec (.seReg x y ign) s = .next t ∧ OnlyPc s t ∧
      PcPlus (if (s.reg x).toNat = (s.reg y).toNat then 4 else 2) s t) ∧
    (∃ t, exec (.sneReg x y ign) s = .next t ∧ OnlyPc s t ∧
      PcPlus (if (s.reg x).toNat = (s.reg y).toNat then 2 else 4) s t)

/-- R16, R17: only a successful `CALL` and a successful `RET` change `SP`, by one; only `CALL` writes a slot. -/
def Obligations.OnlyCallAndRetTouchTheStack : Prop :=
  ∀ (i : Instr) (s t : State), exec i s = .next t →
    (t.sp ≠ s.sp → (∃ nnn, i = .call nnn ∧ t.sp.val = s.sp.val + 1) ∨ (i = .ret ∧ t.sp.val + 1 = s.sp.val)) ∧
    (t.stk ≠ s.stk → ∃ nnn, i = .call nnn ∧ s.sp.val < 16)

/-! ### Register, arithmetic, logic, shift and random (42_register_alu.md) -/

/-- R142 to R144: `LD VX,NN`, `LD VX,VY`, and `ADD VX,NN`, which wraps modulo 256; none writes a flag. That `ADD
VX,NN` writes no flag is the spec's own decision D7 (log entry 12). -/
def Obligations.LoadsAndAddImmediateWriteOneRegister : Prop :=
  ∀ (x y : RegIx) (nn : Byte) (s : State),
    (∃ t, exec (.ldImm x nn) s = .next t ∧ t.reg x = nn ∧ PcPlus 2 s t ∧ OnlyRegsPc [x] s t) ∧
    (∃ t, exec (.ldReg x y) s = .next t ∧ t.reg x = s.reg y ∧ PcPlus 2 s t ∧ OnlyRegsPc [x] s t) ∧
    (∃ t, exec (.addImm x nn) s = .next t ∧ (t.reg x).toNat = ((s.reg x).toNat + nn.toNat) % 256 ∧
      PcPlus 2 s t ∧ OnlyRegsPc [x] s t)

/-- R145 to R147: the bitwise operations, bit by bit; VF is not written as a flag. That VF is not written is the
spec's own decision D7 (log entry 12). -/
def Obligations.BitwiseOperationsActBitByBit : Prop :=
  ∀ (x y : RegIx) (s : State),
    (∃ t, exec (.orReg x y) s = .next t ∧ PcPlus 2 s t ∧ OnlyRegsPc [x] s t ∧
      ∀ k, k < 8 → (t.reg x).getLsbD k = ((s.reg x).getLsbD k || (s.reg y).getLsbD k)) ∧
    (∃ t, exec (.andReg x y) s = .next t ∧ PcPlus 2 s t ∧ OnlyRegsPc [x] s t ∧
      ∀ k, k < 8 → (t.reg x).getLsbD k = ((s.reg x).getLsbD k && (s.reg y).getLsbD k)) ∧
    (∃ t, exec (.xorReg x y) s = .next t ∧ PcPlus 2 s t ∧ OnlyRegsPc [x] s t ∧
      ∀ k, k < 8 → (t.reg x).getLsbD k = ((s.reg x).getLsbD k != (s.reg y).getLsbD k))

/-- R148, R141: `ADD VX,VY`. The sum modulo 256 goes to VX and wins over the flag when X = 0xF; VF is 1 exactly when
the sum of the old values exceeds 255. That the operands are read first is the spec's own decision D6 (log entry 12).
-/
def Obligations.AddRegistersSetsCarry : Prop :=
  ∀ (x y : RegIx) (s : State), ∃ t, exec (.addReg x y) s = .next t ∧
    (t.reg x).toNat = ((s.reg x).toNat + (s.reg y).toNat) % 256 ∧
    (x ≠ vf → (t.reg vf).toNat = if (s.reg x).toNat + (s.reg y).toNat > 255 then 1 else 0) ∧
    PcPlus 2 s t ∧ OnlyRegsPc [x, vf] s t

/-- R149, R150, R141: `SUB VX,VY` is VX - VY and `SUBN VX,VY` the mirrored VY - VX, modulo 256. The difference goes to
VX and wins over the flag when X = 0xF; VF is 1 exactly when the minuend is at least the subtrahend. That the operands
are read first is the spec's own decision D6 (log entry 12). -/
def Obligations.SubtractionsSetNoBorrow : Prop :=
  ∀ (x y : RegIx) (s : State),
    (∃ t, exec (.subReg x y) s = .next t ∧
      (t.reg x).toNat = ((s.reg x).toNat + 256 - (s.reg y).toNat) % 256 ∧
      (x ≠ vf → (t.reg vf).toNat = if (s.reg x).toNat ≥ (s.reg y).toNat then 1 else 0) ∧
      PcPlus 2 s t ∧ OnlyRegsPc [x, vf] s t) ∧
    (∃ t, exec (.subnReg x y) s = .next t ∧
      (t.reg x).toNat = ((s.reg y).toNat + 256 - (s.reg x).toNat) % 256 ∧
      (x ≠ vf → (t.reg vf).toNat = if (s.reg y).toNat ≥ (s.reg x).toNat then 1 else 0) ∧
      PcPlus 2 s t ∧ OnlyRegsPc [x, vf] s t)

/-- R151 to R153, R141: `SHR VX` halves and `SHL VX` doubles modulo 256 the register that `SHIFT_SOURCE` names; VF is
the bit shifted out, and with X = 0xF the result wins over it. `SHIFT_SOURCE` and the order of reads and writes are
the spec's own decisions D5 and D6 (log entries 12 and 14). -/
def Obligations.ShiftsByOnePlace : Prop :=
  ∀ (x y : RegIx) (s : State) (a : Byte),
    (s.params.shiftSource = .vx ∧ a = s.reg x ∨ s.params.shiftSource = .vy ∧ a = s.reg y) →
    (∃ t, exec (.shr x y) s = .next t ∧ (t.reg x).toNat = a.toNat / 2 ∧
      (x ≠ vf → (t.reg vf).toNat = a.toNat % 2) ∧ PcPlus 2 s t ∧ OnlyRegsPc [x, vf] s t) ∧
    (∃ t, exec (.shl x y) s = .next t ∧ (t.reg x).toNat = a.toNat * 2 % 256 ∧
      (x ≠ vf → (t.reg vf).toNat = a.toNat / 128) ∧ PcPlus 2 s t ∧ OnlyRegsPc [x, vf] s t)

/-- R157: `RND VX,NN` writes the tick's random byte masked by NN. That the byte is an input is the spec's own decision
D14 (log entry 3). -/
def Obligations.RandomByteIsMasked : Prop :=
  ∀ (x : RegIx) (nn : Byte) (s : State), ∃ t, exec (.rnd x nn) s = .next t ∧
    (∀ k, k < 8 → (t.reg x).getLsbD k = (s.tickInput.rnd.getLsbD k && nn.getLsbD k)) ∧
    PcPlus 2 s t ∧ OnlyRegsPc [x] s t

/-- R12: an instruction outside the column "writes VF as flag" leaves VF unchanged unless its X field is 0xF. The
spec's own decision D7 (log entry 12). -/
def Obligations.VfKeptByInstructionsWithoutFlag : Prop :=
  ∀ (i : Instr) (s t : State), exec i s = .next t → i.writesFlag = false → i.xField ≠ some vf → t.reg vf = s.reg vf

/-- R112: the random byte is read only by `RND`, the key input only by the `EXT_KEY` instructions. The list of inputs
is the model's (log entry 2). -/
def Obligations.InputsReadOnlyByTheirInstructions : Prop :=
  ∀ (i : Instr) (s : State) (a b : TickInput) (rest : List TickInput),
    (a.rnd = b.rnd ∨ ∀ x nn, i ≠ .rnd x nn) → (a.key = b.key ∨ i.group ≠ .extKey) →
    ∃ u : State, exec i (s.present (a :: rest)) = .next (u.present (a :: rest)) ∧
      exec i (s.present (b :: rest)) = .next (u.present (b :: rest))

/-! ### Index register and memory store (43_index_memory.md, 20_memory.md) -/

/-- R171, R172: `LD I,NNN` and `ADD I,VX`; no flag. That `ADD I,VX` keeps 16 bits and writes no flag is the spec's own
decisions D7 and D8 (log entry 12). -/
def Obligations.IndexRegisterLoadAndAdd : Prop :=
  ∀ (nnn : Addr12) (x : RegIx) (s : State),
    (∃ t, exec (.ldI nnn) s = .next t ∧ t.idx.toNat = nnn.toNat ∧ PcPlus 2 s t ∧ OnlyIdxPc s t) ∧
    (∃ t, exec (.addI x) s = .next t ∧ t.idx.toNat = (s.idx.toNat + (s.reg x).toNat) % 65536 ∧ PcPlus 2 s t ∧
      OnlyIdxPc s t)

/-- R173, R174: `LD B,VX` inside the extent, unless `FONT_STORE = fault` stops it, writes the three decimal digits at
`I`, `I+1`, `I+2` (in the font region only under `allow`) and nothing else. `FONT_STORE` is the spec's own decision
D12 (log entry 14). -/
def Obligations.BcdStoresThreeDigits : Prop :=
  ∀ (x : RegIx) (s : State), s.MemCanonical → s.idx.toNat + 2 ≤ 0xFFF →
    (0x50 ≤ s.idx.toNat ∨ s.params.fontStore ≠ .fault) →
    ∃ t, exec (.ldB x) s = .next t ∧ PcPlus 2 s t ∧ t = { s with mem := t.mem, pc := t.pc } ∧
      (∀ a : Nat, (a < s.idx.toNat ∨ s.idx.toNat + 2 < a) → t.byteAt a = s.byteAt a) ∧
      (∀ k : Nat, k ≤ 2 → s.idx.toNat + k < 0x50 → s.params.fontStore = .ignore →
        t.byteAt (s.idx.toNat + k) = s.byteAt (s.idx.toNat + k)) ∧
      (∀ k : Nat, k ≤ 2 → (0x50 ≤ s.idx.toNat + k ∨ s.params.fontStore = .allow) →
        (t.byteAt (s.idx.toNat + k)).toNat = (s.reg x).toNat / 10 ^ (2 - k) % 10)

/-- R174: when an address of `LD B,VX` exceeds 0xFFF, the fatal `MemoryAccessFault` names the lowest such address;
otherwise, with `FONT_STORE = fault` and `I <= 0x04F`, the kind is `font_store` and the address `I`. Nothing is
written. The event and its payload are the spec's own decisions D11, D12 and D16 (log entry 18). -/
def Obligations.BcdAddressChecks : Prop :=
  ∀ (x : RegIx) (s : State),
    (s.idx.toNat + 2 > 0xFFF → ∃ a : Nat, s.idx.toNat ≤ a ∧ a ≤ s.idx.toNat + 2 ∧ a > 0xFFF ∧
      (∀ b, s.idx.toNat ≤ b → b < a → b ≤ 0xFFF) ∧
      exec (.ldB x) s = .next (s.haltedBy (.memoryAccessFault .store a s.pc))) ∧
    (s.idx.toNat + 2 ≤ 0xFFF → s.idx.toNat ≤ 0x04F → s.params.fontStore = .fault →
      exec (.ldB x) s = .next (s.haltedBy (.memoryAccessFault .fontStore s.idx.toNat s.pc)))

/-- R46: no instruction but `LD B,VX` and `LD [I],VX` changes a byte of `MEM`, and these only bytes of `I`..`I+2` and
`I`..`I+X`. The row of `LD [I],VX` is general knowledge (log entry 26). -/
def Obligations.OnlyStoresChangeMemory : Prop :=
  ∀ (i : Instr) (s t : State) (a : Nat), exec i s = .next t → t.byteAt a ≠ s.byteAt a →
    s.idx.toNat ≤ a ∧ ((∃ x, i = .ldB x ∧ a ≤ s.idx.toNat + 2) ∨ (∃ x : RegIx, i = .ldMemVx x ∧ a ≤ s.idx.toNat + x.val))

/-- R56: a byte stored by a tick is seen by the next fetch. After a tick that runs `LD B,VX` or `LD [I],VX`, and that no
address check stops, the word the next tick fetches, at `PC + 2`, is made of the two bytes as the store left them,
however the block overlaps them. (From `PC = 0x0FFD` on the next fetch lies outside memory.) R56 is the spec's own
inference from R52 and R25; `LD [I],VX` is general knowledge (log entry 26), `FONT_STORE` the spec's own decision D12
(log entry 14). -/
def Obligations.StoreIsSeenByTheNextFetch : Prop :=
  ∀ (x : RegIx) (s : State), s.MemCanonical → s.pc.toNat ≤ 0x0FFC →
    (0x50 ≤ s.idx.toNat ∨ s.params.fontStore ≠ .fault) →
    (∀ bytes : List Byte, bytes = [BitVec.ofNat 8 ((s.reg x).toNat / 100), BitVec.ofNat 8 ((s.reg x).toNat / 10 % 10),
        BitVec.ofNat 8 ((s.reg x).toNat % 10)] →
      s.ReadyFor (.ldB x) → s.idx.toNat + 2 ≤ 0xFFF →
      ∃ t, step s = .next t ∧ PcPlus 2 s t ∧ t.run = .running ∧ t.fetchWord =
        some (wordOfBytes (s.byteAfterStore bytes (s.pc.toNat + 2)) (s.byteAfterStore bytes (s.pc.toNat + 3)))) ∧
    (∀ bytes : List Byte, bytes = s.v.toList.take (x.val + 1) →
      s.ReadyFor (.ldMemVx x) → s.idx.toNat + x.val ≤ 0xFFF →
      ∃ t, step s = .next t ∧ PcPlus 2 s t ∧ t.run = .running ∧ t.fetchWord =
        some (wordOfBytes (s.byteAfterStore bytes (s.pc.toNat + 2)) (s.byteAfterStore bytes (s.pc.toNat + 3))))

/-! ### Display (44_display.md) -/

/-- R181: `CLS` turns every pixel off and sets `DIRTY`, and changes nothing else but `PC`. -/
def Obligations.ClsClearsTheScreen : Prop :=
  ∀ s : State, ∃ t, exec .cls s = .next t ∧ (∀ px py, Frame.pixel t.fb px py = false) ∧ t.dirty = true ∧
    PcPlus 2 s t ∧ t = { s with fb := t.fb, dirty := t.dirty, pc := t.pc } ∧ SameMemory s t

/-- R183, R185, R186: `DRW VX,VY,N` inverts exactly the pixels on which a 1 bit of a row inside the extent (R184) lands,
wrapped per axis, and leaves every other pixel. -/
def Obligations.DrawInvertsTheSpritePixels : Prop :=
  ∀ (x y : RegIx) (n : Fin 16) (s : State), ∃ t, exec (.drw x y n) s = .next t ∧
    ∀ (px : Fin 64) (py : Fin 32), Frame.pixel t.fb px py ≠ Frame.pixel s.fb px py ↔ s.plotsAt x y n.val px py

/-- R186 to R188, R182: VF is 1 when a 1 bit landed on a pixel that was on, else 0; `DIRTY` is set when a bit was
plotted, else left; `PC` advances; `I`, `MEM` and all else stay. That a truncated draw writes VF is the spec's own
decision D15 (log entry 17). -/
def Obligations.DrawWritesCollisionAndDirty : Prop :=
  ∀ (x y : RegIx) (n : Fin 16) (s : State), ∃ t, exec (.drw x y n) s = .next t ∧
    (t.reg vf = 1 ↔ ∃ px py, s.plotsAt x y n.val px py ∧ Frame.pixel s.fb px py = true) ∧
    (t.reg vf = 0 ∨ t.reg vf = 1) ∧
    (t.dirty = true ↔ s.dirty = true ∨ ∃ r c, s.spriteBit n.val r c) ∧
    PcPlus 2 s t ∧ (∀ r : RegIx, r ≠ vf → t.reg r = s.reg r) ∧ SameMemory s t ∧
    t = { s with v := t.v, fb := t.fb, dirty := t.dirty, emitted := t.emitted, pc := t.pc }

/-- R184: the first row whose address exceeds 0xFFF raises one non-fatal `MemoryOutOfBounds`; a draw with no such row,
one with N = 0 among them, raises none. The payload is the spec's own decision D16 (log entry 18). -/
def Obligations.DrawReportsTheFirstRowOutsideMemory : Prop :=
  ∀ (x y : RegIx) (n : Fin 16) (s : State), ∃ t, exec (.drw x y n) s = .next t ∧ t.run = s.run ∧
    ((∀ r, r < n.val → s.idx.toNat + r ≤ 0xFFF) → t.emitted = s.emitted) ∧
    (∀ r, r < n.val → s.idx.toNat + r > 0xFFF → (∀ q, q < r → s.idx.toNat + q ≤ 0xFFF) →
      t.emitted = .event (.memoryOutOfBounds (s.idx.toNat + r) s.pc) :: s.emitted)

/-- R189 (a), R186: drawing the same sprite twice at the same coordinates restores the framebuffer; the second draw
collides when a 1 bit of the sprite landed on a pixel that was off before the first draw, so on a clear screen exactly
when the sprite plots at all. The clause on VF is read from R186 (log entry 24). -/
def Obligations.DrawingTwiceRestoresTheFramebuffer : Prop :=
  ∀ (x y : RegIx) (n : Fin 16) (s u : State), exec (.drw x y n) s = .next u →
    u.reg x = s.reg x → u.reg y = s.reg y →
    ∃ t, exec (.drw x y n) u = .next t ∧ t.fb = s.fb ∧
      (t.reg vf = 1 ↔ ∃ px py, s.plotsAt x y n.val px py ∧ Frame.pixel s.fb px py = false) ∧
      (s.fb = blankFrame → (t.reg vf = 1 ↔ ∃ r c, s.spriteBit n.val r c))

/-- The last clause of R189 (a) as the spec words it, over every framebuffer: "its VF is 1 when the sprite has at least
one 1 bit". It contradicts the pseudocode of R182 and R186, which the model follows by the order of authority of
90_conflicts.md (log entry 24): a 1 bit on a pixel that is on turns it off in the first draw and on again, without a
collision, in the second. Expected to fail. -/
def Obligations.SecondDrawOfANonemptySpriteAlwaysCollides : Prop :=
  ∀ (x y : RegIx) (n : Fin 16) (s u t : State), exec (.drw x y n) s = .next u →
    u.reg x = s.reg x → u.reg y = s.reg y → exec (.drw x y n) u = .next t →
    (∃ r c, s.spriteBit n.val r c) → t.reg vf = 1

/-! ### Extension groups (45_extension_ops.md) -/

/-- R201: `JP V0,NNN`, in a block with `EXT_JUMPV0`. General knowledge, as the spec marks it (log entry 26). -/
def Obligations.JpV0AddsTheOffset : Prop :=
  ∀ (nnn : Addr12) (s : State), s.params.extJumpV0 = true → ∃ t, exec (.jpV0 nnn) s = .next t ∧
    t.pc.toNat = (nnn.toNat + (s.reg 0).toNat) % 65536 ∧ OnlyPc s t

/-- R202 to R204: the moves to and from the timers, in a block with `EXT_TIMER`. General knowledge, as the spec marks
it (log entry 26). -/
def Obligations.TimerMoves : Prop :=
  ∀ (x : RegIx) (s : State), s.params.extTimer = true →
    (∃ t, exec (.ldVxDt x) s = .next t ∧ t.reg x = s.dt ∧ PcPlus 2 s t ∧ OnlyRegsPc [x] s t) ∧
    (∃ t, exec (.ldDtVx x) s = .next t ∧ t.dt = s.reg x ∧ PcPlus 2 s t ∧
      t = { s with dt := t.dt, pc := t.pc } ∧ SameMemory s t) ∧
    (∃ t, exec (.ldStVx x) s = .next t ∧ t.st = s.reg x ∧ PcPlus 2 s t ∧
      t = { s with st := t.st, pc := t.pc } ∧ SameMemory s t)

/-- R205: `LD F,VX` points `I` at the glyph of a digit, in a block with `EXT_FONT`; for a byte above 0x0F the
instruction completes too, and what `I` then holds is free (log entry 4). General knowledge, as the spec marks it (log
entry 26). -/
def Obligations.FontAddressOfADigit : Prop :=
  ∀ (x : RegIx) (s : State), s.params.extFont = true → ∃ t, exec (.ldF x) s = .next t ∧
    ((s.reg x).toNat ≤ 0x0F → t.idx.toNat = 5 * (s.reg x).toNat) ∧ PcPlus 2 s t ∧ OnlyIdxPc s t

/-- R206, R208, R209: `LD [I],VX` inside the extent, unless `FONT_STORE = fault` stops it, in a block with
`EXT_REGMEM`, stores V0..VX at `I`..`I+X` (in the font region only under `allow`). General knowledge, as the spec
marks it (log entry 26). -/
def Obligations.BlockStoreWritesTheRegisters : Prop :=
  ∀ (x : RegIx) (s : State), s.params.extRegmem = true → s.MemCanonical → s.idx.toNat + x.val ≤ 0xFFF →
    (0x50 ≤ s.idx.toNat ∨ s.params.fontStore ≠ .fault) →
    ∃ t, exec (.ldMemVx x) s = .next t ∧ PcPlus 2 s t ∧ t = { s with mem := t.mem, idx := t.idx, pc := t.pc } ∧
      t.idx.toNat = (s.idx.toNat + if s.params.regmemIIncrement then x.val + 1 else 0) % 65536 ∧
      (∀ a : Nat, (a < s.idx.toNat ∨ s.idx.toNat + x.val < a) → t.byteAt a = s.byteAt a) ∧
      (∀ k : RegIx, k ≤ x → s.idx.toNat + k.val < 0x50 → s.params.fontStore = .ignore →
        t.byteAt (s.idx.toNat + k.val) = s.byteAt (s.idx.toNat + k.val)) ∧
      (∀ k : RegIx, k ≤ x → (0x50 ≤ s.idx.toNat + k.val ∨ s.params.fontStore = .allow) →
        t.byteAt (s.idx.toNat + k.val) = s.reg k)

/-- R207, R209: `LD VX,[I]` inside the extent, in a block with `EXT_REGMEM`, loads V0..VX from `I`..`I+X`; reading the
font region is allowed. General knowledge, as the spec marks it (log entry 26). -/
def Obligations.BlockLoadReadsTheRegisters : Prop :=
  ∀ (x : RegIx) (s : State), s.params.extRegmem = true → s.idx.toNat + x.val ≤ 0xFFF →
    ∃ t, exec (.ldVxMem x) s = .next t ∧ PcPlus 2 s t ∧ t = { s with v := t.v, idx := t.idx, pc := t.pc } ∧
      t.idx.toNat = (s.idx.toNat + if s.params.regmemIIncrement then x.val + 1 else 0) % 65536 ∧
      (∀ k : RegIx, k ≤ x → t.reg k = s.byteAt (s.idx.toNat + k.val)) ∧
      (∀ k : RegIx, x < k → t.reg k = s.reg k) ∧ SameMemory s t

/-- R208: the address checks of the block transfers, made before any byte is moved. The spec's own decisions D11, D12
and D25 (log entries 18 and 26). -/
def Obligations.BlockTransferAddressChecks : Prop :=
  ∀ (x : RegIx) (s : State), s.params.extRegmem = true →
    (s.idx.toNat + x.val > 0xFFF → ∃ a : Nat, s.idx.toNat ≤ a ∧ a ≤ s.idx.toNat + x.val ∧ a > 0xFFF ∧
      (∀ b, s.idx.toNat ≤ b → b < a → b ≤ 0xFFF) ∧
      exec (.ldMemVx x) s = .next (s.haltedBy (.memoryAccessFault .store a s.pc)) ∧
      exec (.ldVxMem x) s = .next (s.haltedBy (.memoryAccessFault .load a s.pc))) ∧
    (s.idx.toNat + x.val ≤ 0xFFF → s.idx.toNat ≤ 0x04F → s.params.fontStore = .fault →
      exec (.ldMemVx x) s = .next (s.haltedBy (.memoryAccessFault .fontStore s.idx.toNat s.pc)))

/-- R214, R215, R213: the key skips, in a block with `EXT_KEY`; the key index is the low nibble of VX. General
knowledge and the spec's own decision D26 (log entry 26). -/
def Obligations.KeySkips : Prop :=
  ∀ (x : RegIx) (s : State), s.params.extKey = true →
    (∃ t, exec (.skp x) s = .next t ∧ OnlyPc s t ∧
      PcPlus (if s.tickInput.key.getLsbD ((s.reg x).toNat % 16) then 4 else 2) s t) ∧
    (∃ t, exec (.sknp x) s = .next t ∧ OnlyPc s t ∧
      PcPlus (if s.tickInput.key.getLsbD ((s.reg x).toNat % 16) then 2 else 4) s t)

/-- R216: `LD VX,K`, in a block with `EXT_KEY`, writes the lowest-numbered pressed key; with no key pressed nothing is
written and `PC` is unchanged. General knowledge and the spec's own decision D26 (log entry 26). -/
def Obligations.KeyWaitTakesTheLowestKey : Prop :=
  ∀ (x : RegIx) (s : State), s.params.extKey = true →
    (s.tickInput.key = 0 → exec (.ldVxK x) s = .next s) ∧
    (∀ k, k < 16 → s.tickInput.key.getLsbD k = true → (∀ j, j < k → s.tickInput.key.getLsbD j = false) →
      ∃ t, exec (.ldVxK x) s = .next t ∧ (t.reg x).toNat = k ∧ PcPlus 2 s t ∧ OnlyRegsPc [x] s t)

/-! ### Reset (70_reset_and_hazards.md, 10_state.md) -/

/-- R271, R31: the value of every piece of state of 10_state.md section 1 after reset, for every setting of the parameters
and every ROM that fits. `RUN` and `DIRTY` are the spec's own decisions D18 and D23 (log entry 22); that the model's
`State.reset` is the reset with the spec's parameter values and an empty ROM is the model's choice (log entries 7
and 14). -/
def Obligations.ResetValues : Prop :=
  State.reset = construct Params.specValues [] ∧
  ∀ (p : Params) (rom : List Byte), rom.length ≤ 3584 → ∃ s, s = construct p rom ∧
    (∀ r, s.reg r = 0) ∧ s.idx = 0 ∧ s.pc = 0x0200 ∧ s.sp = 0 ∧ (∀ k, s.stk.get k = 0) ∧ s.dt = 0 ∧ s.st = 0 ∧
    (∀ px py, Frame.pixel s.fb px py = false) ∧ s.dirty = false ∧ s.run = .running ∧
    (∀ a, (h : a < 80) → s.byteAt a = p.font[a]) ∧
    (∀ k, (h : k < rom.length) → s.byteAt (0x200 + k) = rom[k]) ∧
    (∀ a, 80 ≤ a → a ≤ 0xFFF → (a < 0x200 ∨ 0x200 + rom.length ≤ a) → s.byteAt a = 0)

/-- R272: a ROM of at most 3584 bytes is written from 0x200 on; the load touches no other byte of memory, so the font
is unchanged, whatever `FONT_STORE` is. -/
def Obligations.RomLoadPlacesTheBytes : Prop :=
  ∀ (p : Params) (rom : List Byte), rom.length ≤ 3584 →
    (∀ k, (h : k < rom.length) → (construct p rom).byteAt (0x200 + k) = rom[k]) ∧
    (∀ a, a < 0x200 ∨ 0x200 + rom.length ≤ a → (construct p rom).byteAt a = (construct p []).byteAt a) ∧
    (∀ a, (h : a < 80) → (construct p rom).byteAt a = p.font[a])

/-- R273, R31: after a ROM that fits the machine runs and nothing was emitted; a longer ROM is not loaded at all:
`CapacityExceeded(L)` is reported, `RUN` is `FAULTED`, all other reset values stand. `RUN` and the report are the spec's
own decisions D18, D21 and D23 (log entry 22). -/
def Obligations.RomThatDoesNotFitIsNotLoaded : Prop :=
  ∀ (p : Params) (rom : List Byte),
    (rom.length ≤ 3584 → (construct p rom).run = .running ∧ (construct p rom).emitted = []) ∧
    (3584 < rom.length → construct p rom = (construct p []).haltedBy (.capacityExceeded rom.length))

/-! ### Invariants and isolation -/

/-- Every step keeps the invariant: memory stays canonical, `DIRTY` is 0 at every tick boundary (R21), the font is
never overwritten unless `FONT_STORE = allow` (R47), `PC` and the return addresses stay bounded (R124, R201). The
bounds on `PC` are read from R124 and R201 (log entries 26 and 27). -/
def Obligations.StepKeepsTheInvariant : Prop :=
  ∀ s t : State, s.Inv → step s = .next t → t.Inv

/-- The invariant holds right after reset. -/
def Obligations.ResetMeetsTheInvariant : Prop := State.reset.Inv

/-- Every state that a block reaches from construction, with any ROM and under any inputs, meets the invariant, and its
parameters are those of construction. That the parameters stand in State is the model's choice (log entry 1), so is the
listing of inputs by `present` (log entry 2); the bounds on `PC` and the stack slots, by which no fetch ever wraps, are
read from R124 and R201 (log entry 27). -/
def Obligations.ReachableStatesMeetTheInvariant : Prop :=
  ∀ (p : Params) (rom : List Byte) (s : State), Reachable p rom s → s.Inv ∧ s.params = p

/-- R9, R230: the outputs never feed back. Whatever was emitted before, a tick goes to the same state and emits the
same outputs. The record of outputs is the model's (log entry 5). -/
def Obligations.OutputsNeverFeedBack : Prop :=
  ∀ (s t : State) (log : List Output), step s = .next t → ∃ news : List Output, t.emitted = news ++ s.emitted ∧
    step { s with emitted := log } = .next { t with emitted := news ++ log }
end

