-- ==== Sys2Proof/Laws/Decode.lean ====
section
/-! SUPPORT. The fields of a word in each format: what the encoder puts in, the decoder's fields read back. -/

namespace Sys2Proof

theorem formA_toNat (f : Nibble) (nnn : Addr12) : (formA f nnn).toNat = f.toNat * 4096 + nnn.toNat := by
  unfold formA
  rw [BitVec.toNat_append, ← Nat.shiftLeft_add_eq_or_of_lt (by omega), Nat.shiftLeft_eq]

theorem formXNN_toNat (f : Nibble) (x : RegIx) (nn : Byte) :
    (formXNN f x nn).toNat = f.toNat * 4096 + x.val * 256 + nn.toNat := by
  unfold formXNN
  rw [BitVec.toNat_append, BitVec.toNat_append, ← Nat.shiftLeft_add_eq_or_of_lt (by omega),
    ← Nat.shiftLeft_add_eq_or_of_lt (by omega)]
  simp only [Nat.shiftLeft_eq, BitVec.toNat_ofFin]
  omega

theorem formXYN_toNat (f : Nibble) (x y : RegIx) (n : Nibble) :
    (formXYN f x y n).toNat = f.toNat * 4096 + x.val * 256 + y.val * 16 + n.toNat := by
  unfold formXYN
  rw [BitVec.toNat_append, BitVec.toNat_append, BitVec.toNat_append,
    ← Nat.shiftLeft_add_eq_or_of_lt (by omega), ← Nat.shiftLeft_add_eq_or_of_lt (by omega),
    ← Nat.shiftLeft_add_eq_or_of_lt (by omega)]
  simp only [Nat.shiftLeft_eq, BitVec.toNat_ofFin]
  omega

theorem fieldF_toNat (w : Word) : (fieldF w).toNat = w.toNat / 4096 % 16 := by
  simp [fieldF, Nat.shiftRight_eq_div_pow]
theorem fieldX_val (w : Word) : (fieldX w).val = w.toNat / 256 % 16 := by
  simp [fieldX, Nat.shiftRight_eq_div_pow]
theorem fieldY_val (w : Word) : (fieldY w).val = w.toNat / 16 % 16 := by
  simp [fieldY, Nat.shiftRight_eq_div_pow]
theorem fieldN_toNat (w : Word) : (fieldN w).toNat = w.toNat % 16 := by
  simp [fieldN]
theorem fieldNN_toNat (w : Word) : (fieldNN w).toNat = w.toNat % 256 := by
  simp [fieldNN]
theorem fieldNNN_toNat (w : Word) : (fieldNNN w).toNat = w.toNat % 4096 := by
  simp [fieldNNN]

@[simp] theorem fieldF_formA (f : Nibble) (nnn : Addr12) : fieldF (formA f nnn) = f := by
  apply BitVec.eq_of_toNat_eq; rw [fieldF_toNat, formA_toNat]; omega
@[simp] theorem fieldNNN_formA (f : Nibble) (nnn : Addr12) : fieldNNN (formA f nnn) = nnn := by
  apply BitVec.eq_of_toNat_eq; rw [fieldNNN_toNat, formA_toNat]; omega
@[simp] theorem fieldF_formXNN (f : Nibble) (x : RegIx) (nn : Byte) : fieldF (formXNN f x nn) = f := by
  apply BitVec.eq_of_toNat_eq; rw [fieldF_toNat, formXNN_toNat]; omega
@[simp] theorem fieldX_formXNN (f : Nibble) (x : RegIx) (nn : Byte) : fieldX (formXNN f x nn) = x := by
  apply Fin.ext; rw [fieldX_val, formXNN_toNat]; omega
@[simp] theorem fieldNN_formXNN (f : Nibble) (x : RegIx) (nn : Byte) : fieldNN (formXNN f x nn) = nn := by
  apply BitVec.eq_of_toNat_eq; rw [fieldNN_toNat, formXNN_toNat]; omega
@[simp] theorem fieldF_formXYN (f : Nibble) (x y : RegIx) (n : Nibble) : fieldF (formXYN f x y n) = f := by
  apply BitVec.eq_of_toNat_eq; rw [fieldF_toNat, formXYN_toNat]; omega
@[simp] theorem fieldX_formXYN (f : Nibble) (x y : RegIx) (n : Nibble) : fieldX (formXYN f x y n) = x := by
  apply Fin.ext; rw [fieldX_val, formXYN_toNat]; omega
@[simp] theorem fieldY_formXYN (f : Nibble) (x y : RegIx) (n : Nibble) : fieldY (formXYN f x y n) = y := by
  apply Fin.ext; rw [fieldY_val, formXYN_toNat]; omega
@[simp] theorem fieldN_formXYN (f : Nibble) (x y : RegIx) (n : Nibble) : fieldN (formXYN f x y n) = n := by
  apply BitVec.eq_of_toNat_eq; rw [fieldN_toNat, formXYN_toNat]; omega

/-- Two words with the same four fields are equal. -/
theorem word_ext_fields {w u : Word} (hf : fieldF w = fieldF u) (hx : fieldX w = fieldX u) (hn : fieldNN w = fieldNN u) :
    w = u := by
  apply BitVec.eq_of_toNat_eq
  have h1 := congrArg BitVec.toNat hf
  have h2 := congrArg Fin.val hx
  have h3 := congrArg BitVec.toNat hn
  rw [fieldF_toNat, fieldF_toNat] at h1
  rw [fieldX_val, fieldX_val] at h2
  rw [fieldNN_toNat, fieldNN_toNat] at h3
  omega

/-- The byte of a word that the fetch reads first is its high byte (R48). -/
theorem wordOfBytes_toNat (a b : Byte) : (wordOfBytes a b).toNat = a.toNat * 256 + b.toNat := by
  unfold wordOfBytes
  rw [BitVec.toNat_append, ← Nat.shiftLeft_add_eq_or_of_lt (by omega), Nat.shiftLeft_eq]

/-- Laying a word out in bytes and assembling it again gives it back (R48). -/
theorem wordOfBytes_bytesOfWord (w : Word) : wordOfBytes (bytesOfWord w).1 (bytesOfWord w).2 = w := by
  apply BitVec.eq_of_toNat_eq
  rw [wordOfBytes_toNat]
  simp [bytesOfWord, Nat.shiftRight_eq_div_pow]
  omega

/-! ### The masks of the opcode table -/

theorem getLsbD_formA (f : Nibble) (nnn : Addr12) (i : Nat) :
    (formA f nnn).getLsbD i = if i < 12 then nnn.getLsbD i else f.getLsbD (i - 12) := by
  unfold formA; rw [BitVec.getLsbD_append]

theorem getLsbD_formXNN (f : Nibble) (x : RegIx) (nn : Byte) (i : Nat) :
    (formXNN f x nn).getLsbD i = if i < 8 then nn.getLsbD i
      else if i - 8 < 4 then (BitVec.ofFin (w := 4) x).getLsbD (i - 8) else f.getLsbD (i - 8 - 4) := by
  unfold formXNN; rw [BitVec.getLsbD_append, BitVec.getLsbD_append]

theorem getLsbD_formXYN (f : Nibble) (x y : RegIx) (n : Nibble) (i : Nat) :
    (formXYN f x y n).getLsbD i = if i < 4 then n.getLsbD i
      else if i - 4 < 4 then (BitVec.ofFin (w := 4) y).getLsbD (i - 4)
      else if i - 4 - 4 < 4 then (BitVec.ofFin (w := 4) x).getLsbD (i - 4 - 4) else f.getLsbD (i - 4 - 4 - 4) := by
  unfold formXYN; rw [BitVec.getLsbD_append, BitVec.getLsbD_append, BitVec.getLsbD_append]

/-- The mask 0xF000 keeps the family. -/
theorem and_F000 (w : Word) : w &&& 0xF000#16 = formA (fieldF w) 0#12 := by
  apply BitVec.eq_of_getLsbD_eq
  intro i hi
  rw [BitVec.getLsbD_and, getLsbD_formA]
  interval_cases i <;> simp [fieldF]

/-- The mask 0xF00F keeps the family and `N`. -/
theorem and_F00F (w : Word) : w &&& 0xF00F#16 = formXYN (fieldF w) 0 0 (fieldN w) := by
  apply BitVec.eq_of_getLsbD_eq
  intro i hi
  rw [BitVec.getLsbD_and, getLsbD_formXYN]
  interval_cases i <;> simp [fieldF, fieldN]

/-- The mask 0xF0FF keeps the family and `NN`. -/
theorem and_F0FF (w : Word) : w &&& 0xF0FF#16 = formXNN (fieldF w) 0 (fieldNN w) := by
  apply BitVec.eq_of_getLsbD_eq
  intro i hi
  rw [BitVec.getLsbD_and, getLsbD_formXNN]
  interval_cases i <;> simp [fieldF, fieldNN]

end Sys2Proof
end

