-- ==== Sys2Proof/Laws/State.lean ====
section
/-! SUPPORT. The state record: each field after each update, true by `rfl` and tagged for `simp`, so that no later
proof unfolds a record update. -/

namespace Sys2Proof.Machine

/-! ### `setPc` -/

@[simp] theorem setPc_v (s : State) (a : Word) : (s.setPc a).v = s.v := rfl
@[simp] theorem setPc_idx (s : State) (a : Word) : (s.setPc a).idx = s.idx := rfl
@[simp] theorem setPc_pc (s : State) (a : Word) : (s.setPc a).pc = a := rfl
@[simp] theorem setPc_stk (s : State) (a : Word) : (s.setPc a).stk = s.stk := rfl
@[simp] theorem setPc_sp (s : State) (a : Word) : (s.setPc a).sp = s.sp := rfl
@[simp] theorem setPc_dt (s : State) (a : Word) : (s.setPc a).dt = s.dt := rfl
@[simp] theorem setPc_st (s : State) (a : Word) : (s.setPc a).st = s.st := rfl
@[simp] theorem setPc_mem (s : State) (a : Word) : (s.setPc a).mem = s.mem := rfl
@[simp] theorem setPc_fb (s : State) (a : Word) : (s.setPc a).fb = s.fb := rfl
@[simp] theorem setPc_dirty (s : State) (a : Word) : (s.setPc a).dirty = s.dirty := rfl
@[simp] theorem setPc_run (s : State) (a : Word) : (s.setPc a).run = s.run := rfl
@[simp] theorem setPc_params (s : State) (a : Word) : (s.setPc a).params = s.params := rfl
@[simp] theorem setPc_emitted (s : State) (a : Word) : (s.setPc a).emitted = s.emitted := rfl
@[simp] theorem setPc_inputs (s : State) (a : Word) : (s.setPc a).inputs = s.inputs := rfl
@[simp] theorem setPc_draws (s : State) (a : Word) : (s.setPc a).draws = s.draws := rfl
@[simp] theorem setPc_reg (s : State) (a : Word) (k : RegIx) : (s.setPc a).reg k = s.reg k := rfl
@[simp] theorem setPc_byteAt (s : State) (a : Word) (k : Nat) : (s.setPc a).byteAt k = s.byteAt k := rfl
@[simp] theorem setPc_tickInput (s : State) (a : Word) : (s.setPc a).tickInput = s.tickInput := rfl

/-! ### `setIdx` -/

@[simp] theorem setIdx_v (s : State) (a : Word) : (s.setIdx a).v = s.v := rfl
@[simp] theorem setIdx_idx (s : State) (a : Word) : (s.setIdx a).idx = a := rfl
@[simp] theorem setIdx_pc (s : State) (a : Word) : (s.setIdx a).pc = s.pc := rfl
@[simp] theorem setIdx_stk (s : State) (a : Word) : (s.setIdx a).stk = s.stk := rfl
@[simp] theorem setIdx_sp (s : State) (a : Word) : (s.setIdx a).sp = s.sp := rfl
@[simp] theorem setIdx_dt (s : State) (a : Word) : (s.setIdx a).dt = s.dt := rfl
@[simp] theorem setIdx_st (s : State) (a : Word) : (s.setIdx a).st = s.st := rfl
@[simp] theorem setIdx_mem (s : State) (a : Word) : (s.setIdx a).mem = s.mem := rfl
@[simp] theorem setIdx_fb (s : State) (a : Word) : (s.setIdx a).fb = s.fb := rfl
@[simp] theorem setIdx_dirty (s : State) (a : Word) : (s.setIdx a).dirty = s.dirty := rfl
@[simp] theorem setIdx_run (s : State) (a : Word) : (s.setIdx a).run = s.run := rfl
@[simp] theorem setIdx_params (s : State) (a : Word) : (s.setIdx a).params = s.params := rfl
@[simp] theorem setIdx_emitted (s : State) (a : Word) : (s.setIdx a).emitted = s.emitted := rfl
@[simp] theorem setIdx_inputs (s : State) (a : Word) : (s.setIdx a).inputs = s.inputs := rfl
@[simp] theorem setIdx_draws (s : State) (a : Word) : (s.setIdx a).draws = s.draws := rfl
@[simp] theorem setIdx_reg (s : State) (a : Word) (k : RegIx) : (s.setIdx a).reg k = s.reg k := rfl
@[simp] theorem setIdx_byteAt (s : State) (a : Word) (k : Nat) : (s.setIdx a).byteAt k = s.byteAt k := rfl
@[simp] theorem setIdx_tickInput (s : State) (a : Word) : (s.setIdx a).tickInput = s.tickInput := rfl

/-! ### `setDt` -/

@[simp] theorem setDt_v (s : State) (b : Byte) : (s.setDt b).v = s.v := rfl
@[simp] theorem setDt_idx (s : State) (b : Byte) : (s.setDt b).idx = s.idx := rfl
@[simp] theorem setDt_pc (s : State) (b : Byte) : (s.setDt b).pc = s.pc := rfl
@[simp] theorem setDt_stk (s : State) (b : Byte) : (s.setDt b).stk = s.stk := rfl
@[simp] theorem setDt_sp (s : State) (b : Byte) : (s.setDt b).sp = s.sp := rfl
@[simp] theorem setDt_dt (s : State) (b : Byte) : (s.setDt b).dt = b := rfl
@[simp] theorem setDt_st (s : State) (b : Byte) : (s.setDt b).st = s.st := rfl
@[simp] theorem setDt_mem (s : State) (b : Byte) : (s.setDt b).mem = s.mem := rfl
@[simp] theorem setDt_fb (s : State) (b : Byte) : (s.setDt b).fb = s.fb := rfl
@[simp] theorem setDt_dirty (s : State) (b : Byte) : (s.setDt b).dirty = s.dirty := rfl
@[simp] theorem setDt_run (s : State) (b : Byte) : (s.setDt b).run = s.run := rfl
@[simp] theorem setDt_params (s : State) (b : Byte) : (s.setDt b).params = s.params := rfl
@[simp] theorem setDt_emitted (s : State) (b : Byte) : (s.setDt b).emitted = s.emitted := rfl
@[simp] theorem setDt_inputs (s : State) (b : Byte) : (s.setDt b).inputs = s.inputs := rfl
@[simp] theorem setDt_draws (s : State) (b : Byte) : (s.setDt b).draws = s.draws := rfl
@[simp] theorem setDt_reg (s : State) (b : Byte) (k : RegIx) : (s.setDt b).reg k = s.reg k := rfl
@[simp] theorem setDt_byteAt (s : State) (b : Byte) (k : Nat) : (s.setDt b).byteAt k = s.byteAt k := rfl
@[simp] theorem setDt_tickInput (s : State) (b : Byte) : (s.setDt b).tickInput = s.tickInput := rfl

/-! ### `setSt` -/

@[simp] theorem setSt_v (s : State) (b : Byte) : (s.setSt b).v = s.v := rfl
@[simp] theorem setSt_idx (s : State) (b : Byte) : (s.setSt b).idx = s.idx := rfl
@[simp] theorem setSt_pc (s : State) (b : Byte) : (s.setSt b).pc = s.pc := rfl
@[simp] theorem setSt_stk (s : State) (b : Byte) : (s.setSt b).stk = s.stk := rfl
@[simp] theorem setSt_sp (s : State) (b : Byte) : (s.setSt b).sp = s.sp := rfl
@[simp] theorem setSt_dt (s : State) (b : Byte) : (s.setSt b).dt = s.dt := rfl
@[simp] theorem setSt_st (s : State) (b : Byte) : (s.setSt b).st = b := rfl
@[simp] theorem setSt_mem (s : State) (b : Byte) : (s.setSt b).mem = s.mem := rfl
@[simp] theorem setSt_fb (s : State) (b : Byte) : (s.setSt b).fb = s.fb := rfl
@[simp] theorem setSt_dirty (s : State) (b : Byte) : (s.setSt b).dirty = s.dirty := rfl
@[simp] theorem setSt_run (s : State) (b : Byte) : (s.setSt b).run = s.run := rfl
@[simp] theorem setSt_params (s : State) (b : Byte) : (s.setSt b).params = s.params := rfl
@[simp] theorem setSt_emitted (s : State) (b : Byte) : (s.setSt b).emitted = s.emitted := rfl
@[simp] theorem setSt_inputs (s : State) (b : Byte) : (s.setSt b).inputs = s.inputs := rfl
@[simp] theorem setSt_draws (s : State) (b : Byte) : (s.setSt b).draws = s.draws := rfl
@[simp] theorem setSt_reg (s : State) (b : Byte) (k : RegIx) : (s.setSt b).reg k = s.reg k := rfl
@[simp] theorem setSt_byteAt (s : State) (b : Byte) (k : Nat) : (s.setSt b).byteAt k = s.byteAt k := rfl
@[simp] theorem setSt_tickInput (s : State) (b : Byte) : (s.setSt b).tickInput = s.tickInput := rfl

/-! ### `setRun` -/

@[simp] theorem setRun_v (s : State) (r : RunState) : (s.setRun r).v = s.v := rfl
@[simp] theorem setRun_idx (s : State) (r : RunState) : (s.setRun r).idx = s.idx := rfl
@[simp] theorem setRun_pc (s : State) (r : RunState) : (s.setRun r).pc = s.pc := rfl
@[simp] theorem setRun_stk (s : State) (r : RunState) : (s.setRun r).stk = s.stk := rfl
@[simp] theorem setRun_sp (s : State) (r : RunState) : (s.setRun r).sp = s.sp := rfl
@[simp] theorem setRun_dt (s : State) (r : RunState) : (s.setRun r).dt = s.dt := rfl
@[simp] theorem setRun_st (s : State) (r : RunState) : (s.setRun r).st = s.st := rfl
@[simp] theorem setRun_mem (s : State) (r : RunState) : (s.setRun r).mem = s.mem := rfl
@[simp] theorem setRun_fb (s : State) (r : RunState) : (s.setRun r).fb = s.fb := rfl
@[simp] theorem setRun_dirty (s : State) (r : RunState) : (s.setRun r).dirty = s.dirty := rfl
@[simp] theorem setRun_run (s : State) (r : RunState) : (s.setRun r).run = r := rfl
@[simp] theorem setRun_params (s : State) (r : RunState) : (s.setRun r).params = s.params := rfl
@[simp] theorem setRun_emitted (s : State) (r : RunState) : (s.setRun r).emitted = s.emitted := rfl
@[simp] theorem setRun_inputs (s : State) (r : RunState) : (s.setRun r).inputs = s.inputs := rfl
@[simp] theorem setRun_draws (s : State) (r : RunState) : (s.setRun r).draws = s.draws := rfl
@[simp] theorem setRun_reg (s : State) (r : RunState) (k : RegIx) : (s.setRun r).reg k = s.reg k := rfl
@[simp] theorem setRun_byteAt (s : State) (r : RunState) (k : Nat) : (s.setRun r).byteAt k = s.byteAt k := rfl
@[simp] theorem setRun_tickInput (s : State) (r : RunState) : (s.setRun r).tickInput = s.tickInput := rfl

/-! ### `setDirty` -/

@[simp] theorem setDirty_v (s : State) (d : Bool) : (s.setDirty d).v = s.v := rfl
@[simp] theorem setDirty_idx (s : State) (d : Bool) : (s.setDirty d).idx = s.idx := rfl
@[simp] theorem setDirty_pc (s : State) (d : Bool) : (s.setDirty d).pc = s.pc := rfl
@[simp] theorem setDirty_stk (s : State) (d : Bool) : (s.setDirty d).stk = s.stk := rfl
@[simp] theorem setDirty_sp (s : State) (d : Bool) : (s.setDirty d).sp = s.sp := rfl
@[simp] theorem setDirty_dt (s : State) (d : Bool) : (s.setDirty d).dt = s.dt := rfl
@[simp] theorem setDirty_st (s : State) (d : Bool) : (s.setDirty d).st = s.st := rfl
@[simp] theorem setDirty_mem (s : State) (d : Bool) : (s.setDirty d).mem = s.mem := rfl
@[simp] theorem setDirty_fb (s : State) (d : Bool) : (s.setDirty d).fb = s.fb := rfl
@[simp] theorem setDirty_dirty (s : State) (d : Bool) : (s.setDirty d).dirty = d := rfl
@[simp] theorem setDirty_run (s : State) (d : Bool) : (s.setDirty d).run = s.run := rfl
@[simp] theorem setDirty_params (s : State) (d : Bool) : (s.setDirty d).params = s.params := rfl
@[simp] theorem setDirty_emitted (s : State) (d : Bool) : (s.setDirty d).emitted = s.emitted := rfl
@[simp] theorem setDirty_inputs (s : State) (d : Bool) : (s.setDirty d).inputs = s.inputs := rfl
@[simp] theorem setDirty_draws (s : State) (d : Bool) : (s.setDirty d).draws = s.draws := rfl
@[simp] theorem setDirty_reg (s : State) (d : Bool) (k : RegIx) : (s.setDirty d).reg k = s.reg k := rfl
@[simp] theorem setDirty_byteAt (s : State) (d : Bool) (k : Nat) : (s.setDirty d).byteAt k = s.byteAt k := rfl
@[simp] theorem setDirty_tickInput (s : State) (d : Bool) : (s.setDirty d).tickInput = s.tickInput := rfl

/-! ### `setFb` -/

@[simp] theorem setFb_v (s : State) (f : Frame) : (s.setFb f).v = s.v := rfl
@[simp] theorem setFb_idx (s : State) (f : Frame) : (s.setFb f).idx = s.idx := rfl
@[simp] theorem setFb_pc (s : State) (f : Frame) : (s.setFb f).pc = s.pc := rfl
@[simp] theorem setFb_stk (s : State) (f : Frame) : (s.setFb f).stk = s.stk := rfl
@[simp] theorem setFb_sp (s : State) (f : Frame) : (s.setFb f).sp = s.sp := rfl
@[simp] theorem setFb_dt (s : State) (f : Frame) : (s.setFb f).dt = s.dt := rfl
@[simp] theorem setFb_st (s : State) (f : Frame) : (s.setFb f).st = s.st := rfl
@[simp] theorem setFb_mem (s : State) (f : Frame) : (s.setFb f).mem = s.mem := rfl
@[simp] theorem setFb_fb (s : State) (f : Frame) : (s.setFb f).fb = f := rfl
@[simp] theorem setFb_dirty (s : State) (f : Frame) : (s.setFb f).dirty = s.dirty := rfl
@[simp] theorem setFb_run (s : State) (f : Frame) : (s.setFb f).run = s.run := rfl
@[simp] theorem setFb_params (s : State) (f : Frame) : (s.setFb f).params = s.params := rfl
@[simp] theorem setFb_emitted (s : State) (f : Frame) : (s.setFb f).emitted = s.emitted := rfl
@[simp] theorem setFb_inputs (s : State) (f : Frame) : (s.setFb f).inputs = s.inputs := rfl
@[simp] theorem setFb_draws (s : State) (f : Frame) : (s.setFb f).draws = s.draws := rfl
@[simp] theorem setFb_reg (s : State) (f : Frame) (k : RegIx) : (s.setFb f).reg k = s.reg k := rfl
@[simp] theorem setFb_byteAt (s : State) (f : Frame) (k : Nat) : (s.setFb f).byteAt k = s.byteAt k := rfl
@[simp] theorem setFb_tickInput (s : State) (f : Frame) : (s.setFb f).tickInput = s.tickInput := rfl

/-! ### `setV` -/

@[simp] theorem setV_v (s : State) (w : Vector Byte 16) : (s.setV w).v = w := rfl
@[simp] theorem setV_idx (s : State) (w : Vector Byte 16) : (s.setV w).idx = s.idx := rfl
@[simp] theorem setV_pc (s : State) (w : Vector Byte 16) : (s.setV w).pc = s.pc := rfl
@[simp] theorem setV_stk (s : State) (w : Vector Byte 16) : (s.setV w).stk = s.stk := rfl
@[simp] theorem setV_sp (s : State) (w : Vector Byte 16) : (s.setV w).sp = s.sp := rfl
@[simp] theorem setV_dt (s : State) (w : Vector Byte 16) : (s.setV w).dt = s.dt := rfl
@[simp] theorem setV_st (s : State) (w : Vector Byte 16) : (s.setV w).st = s.st := rfl
@[simp] theorem setV_mem (s : State) (w : Vector Byte 16) : (s.setV w).mem = s.mem := rfl
@[simp] theorem setV_fb (s : State) (w : Vector Byte 16) : (s.setV w).fb = s.fb := rfl
@[simp] theorem setV_dirty (s : State) (w : Vector Byte 16) : (s.setV w).dirty = s.dirty := rfl
@[simp] theorem setV_run (s : State) (w : Vector Byte 16) : (s.setV w).run = s.run := rfl
@[simp] theorem setV_params (s : State) (w : Vector Byte 16) : (s.setV w).params = s.params := rfl
@[simp] theorem setV_emitted (s : State) (w : Vector Byte 16) : (s.setV w).emitted = s.emitted := rfl
@[simp] theorem setV_inputs (s : State) (w : Vector Byte 16) : (s.setV w).inputs = s.inputs := rfl
@[simp] theorem setV_draws (s : State) (w : Vector Byte 16) : (s.setV w).draws = s.draws := rfl
@[simp] theorem setV_byteAt (s : State) (w : Vector Byte 16) (k : Nat) : (s.setV w).byteAt k = s.byteAt k := rfl
@[simp] theorem setV_tickInput (s : State) (w : Vector Byte 16) : (s.setV w).tickInput = s.tickInput := rfl

/-! ### `setMem` -/

@[simp] theorem setMem_v (s : State) (m : Memory) : (s.setMem m).v = s.v := rfl
@[simp] theorem setMem_idx (s : State) (m : Memory) : (s.setMem m).idx = s.idx := rfl
@[simp] theorem setMem_pc (s : State) (m : Memory) : (s.setMem m).pc = s.pc := rfl
@[simp] theorem setMem_stk (s : State) (m : Memory) : (s.setMem m).stk = s.stk := rfl
@[simp] theorem setMem_sp (s : State) (m : Memory) : (s.setMem m).sp = s.sp := rfl
@[simp] theorem setMem_dt (s : State) (m : Memory) : (s.setMem m).dt = s.dt := rfl
@[simp] theorem setMem_st (s : State) (m : Memory) : (s.setMem m).st = s.st := rfl
@[simp] theorem setMem_mem (s : State) (m : Memory) : (s.setMem m).mem = m := rfl
@[simp] theorem setMem_fb (s : State) (m : Memory) : (s.setMem m).fb = s.fb := rfl
@[simp] theorem setMem_dirty (s : State) (m : Memory) : (s.setMem m).dirty = s.dirty := rfl
@[simp] theorem setMem_run (s : State) (m : Memory) : (s.setMem m).run = s.run := rfl
@[simp] theorem setMem_params (s : State) (m : Memory) : (s.setMem m).params = s.params := rfl
@[simp] theorem setMem_emitted (s : State) (m : Memory) : (s.setMem m).emitted = s.emitted := rfl
@[simp] theorem setMem_inputs (s : State) (m : Memory) : (s.setMem m).inputs = s.inputs := rfl
@[simp] theorem setMem_draws (s : State) (m : Memory) : (s.setMem m).draws = s.draws := rfl
@[simp] theorem setMem_reg (s : State) (m : Memory) (k : RegIx) : (s.setMem m).reg k = s.reg k := rfl
@[simp] theorem setMem_tickInput (s : State) (m : Memory) : (s.setMem m).tickInput = s.tickInput := rfl

/-! ### `emit` -/

@[simp] theorem emit_v (s : State) (o : Output) : (s.emit o).v = s.v := rfl
@[simp] theorem emit_idx (s : State) (o : Output) : (s.emit o).idx = s.idx := rfl
@[simp] theorem emit_pc (s : State) (o : Output) : (s.emit o).pc = s.pc := rfl
@[simp] theorem emit_stk (s : State) (o : Output) : (s.emit o).stk = s.stk := rfl
@[simp] theorem emit_sp (s : State) (o : Output) : (s.emit o).sp = s.sp := rfl
@[simp] theorem emit_dt (s : State) (o : Output) : (s.emit o).dt = s.dt := rfl
@[simp] theorem emit_st (s : State) (o : Output) : (s.emit o).st = s.st := rfl
@[simp] theorem emit_mem (s : State) (o : Output) : (s.emit o).mem = s.mem := rfl
@[simp] theorem emit_fb (s : State) (o : Output) : (s.emit o).fb = s.fb := rfl
@[simp] theorem emit_dirty (s : State) (o : Output) : (s.emit o).dirty = s.dirty := rfl
@[simp] theorem emit_run (s : State) (o : Output) : (s.emit o).run = s.run := rfl
@[simp] theorem emit_params (s : State) (o : Output) : (s.emit o).params = s.params := rfl
@[simp] theorem emit_emitted (s : State) (o : Output) : (s.emit o).emitted = o :: s.emitted := rfl
@[simp] theorem emit_inputs (s : State) (o : Output) : (s.emit o).inputs = s.inputs := rfl
@[simp] theorem emit_draws (s : State) (o : Output) : (s.emit o).draws = s.draws := rfl
@[simp] theorem emit_reg (s : State) (o : Output) (k : RegIx) : (s.emit o).reg k = s.reg k := rfl
@[simp] theorem emit_byteAt (s : State) (o : Output) (k : Nat) : (s.emit o).byteAt k = s.byteAt k := rfl
@[simp] theorem emit_tickInput (s : State) (o : Output) : (s.emit o).tickInput = s.tickInput := rfl

/-! ### `consumeInput` -/

@[simp] theorem consumeInput_v (s : State) : (s.consumeInput).v = s.v := rfl
@[simp] theorem consumeInput_idx (s : State) : (s.consumeInput).idx = s.idx := rfl
@[simp] theorem consumeInput_pc (s : State) : (s.consumeInput).pc = s.pc := rfl
@[simp] theorem consumeInput_stk (s : State) : (s.consumeInput).stk = s.stk := rfl
@[simp] theorem consumeInput_sp (s : State) : (s.consumeInput).sp = s.sp := rfl
@[simp] theorem consumeInput_dt (s : State) : (s.consumeInput).dt = s.dt := rfl
@[simp] theorem consumeInput_st (s : State) : (s.consumeInput).st = s.st := rfl
@[simp] theorem consumeInput_mem (s : State) : (s.consumeInput).mem = s.mem := rfl
@[simp] theorem consumeInput_fb (s : State) : (s.consumeInput).fb = s.fb := rfl
@[simp] theorem consumeInput_dirty (s : State) : (s.consumeInput).dirty = s.dirty := rfl
@[simp] theorem consumeInput_run (s : State) : (s.consumeInput).run = s.run := rfl
@[simp] theorem consumeInput_params (s : State) : (s.consumeInput).params = s.params := rfl
@[simp] theorem consumeInput_emitted (s : State) : (s.consumeInput).emitted = s.emitted := rfl
@[simp] theorem consumeInput_inputs (s : State) : (s.consumeInput).inputs = s.inputs.tail := rfl
@[simp] theorem consumeInput_draws (s : State) : (s.consumeInput).draws = s.draws + 1 := rfl
@[simp] theorem consumeInput_reg (s : State) (k : RegIx) : (s.consumeInput).reg k = s.reg k := rfl
@[simp] theorem consumeInput_byteAt (s : State) (k : Nat) : (s.consumeInput).byteAt k = s.byteAt k := rfl

/-! ### The updates built from these -/

theorem advance_eq (s : State) : s.advance = s.setPc (s.pc + 2) := rfl
theorem skipIf_eq (s : State) (b : Bool) : s.skipIf b = s.setPc (if b then s.pc + 4 else s.pc + 2) := rfl
theorem setReg_eq (s : State) (r : RegIx) (b : Byte) : s.setReg r b = s.setV (s.v.set r.val b) := rfl
theorem putByte_eq (s : State) (a : Nat) (b : Byte) :
    s.putByte a b = s.setMem (Memory.put (resetByte s.params a) a b s.mem) := rfl
theorem setFlagAndReg_eq (s : State) (x : RegIx) (f : Bool) (b : Byte) :
    s.setFlagAndReg x f b = (s.setReg vf (flagByte f)).setReg x b := rfl

/-! ### `setReg` and `putByte` -/

@[simp] theorem setReg_idx (s : State) (r : RegIx) (b : Byte) : (s.setReg r b).idx = s.idx := rfl
@[simp] theorem setReg_pc (s : State) (r : RegIx) (b : Byte) : (s.setReg r b).pc = s.pc := rfl
@[simp] theorem setReg_stk (s : State) (r : RegIx) (b : Byte) : (s.setReg r b).stk = s.stk := rfl
@[simp] theorem setReg_sp (s : State) (r : RegIx) (b : Byte) : (s.setReg r b).sp = s.sp := rfl
@[simp] theorem setReg_dt (s : State) (r : RegIx) (b : Byte) : (s.setReg r b).dt = s.dt := rfl
@[simp] theorem setReg_st (s : State) (r : RegIx) (b : Byte) : (s.setReg r b).st = s.st := rfl
@[simp] theorem setReg_mem (s : State) (r : RegIx) (b : Byte) : (s.setReg r b).mem = s.mem := rfl
@[simp] theorem setReg_fb (s : State) (r : RegIx) (b : Byte) : (s.setReg r b).fb = s.fb := rfl
@[simp] theorem setReg_dirty (s : State) (r : RegIx) (b : Byte) : (s.setReg r b).dirty = s.dirty := rfl
@[simp] theorem setReg_run (s : State) (r : RegIx) (b : Byte) : (s.setReg r b).run = s.run := rfl
@[simp] theorem setReg_params (s : State) (r : RegIx) (b : Byte) : (s.setReg r b).params = s.params := rfl
@[simp] theorem setReg_emitted (s : State) (r : RegIx) (b : Byte) : (s.setReg r b).emitted = s.emitted := rfl
@[simp] theorem setReg_inputs (s : State) (r : RegIx) (b : Byte) : (s.setReg r b).inputs = s.inputs := rfl
@[simp] theorem setReg_draws (s : State) (r : RegIx) (b : Byte) : (s.setReg r b).draws = s.draws := rfl
@[simp] theorem setReg_byteAt (s : State) (r : RegIx) (b : Byte) (k : Nat) : (s.setReg r b).byteAt k = s.byteAt k := rfl
@[simp] theorem setReg_tickInput (s : State) (r : RegIx) (b : Byte) : (s.setReg r b).tickInput = s.tickInput := rfl
@[simp] theorem putByte_v (s : State) (a : Nat) (b : Byte) : (s.putByte a b).v = s.v := rfl
@[simp] theorem putByte_idx (s : State) (a : Nat) (b : Byte) : (s.putByte a b).idx = s.idx := rfl
@[simp] theorem putByte_pc (s : State) (a : Nat) (b : Byte) : (s.putByte a b).pc = s.pc := rfl
@[simp] theorem putByte_stk (s : State) (a : Nat) (b : Byte) : (s.putByte a b).stk = s.stk := rfl
@[simp] theorem putByte_sp (s : State) (a : Nat) (b : Byte) : (s.putByte a b).sp = s.sp := rfl
@[simp] theorem putByte_dt (s : State) (a : Nat) (b : Byte) : (s.putByte a b).dt = s.dt := rfl
@[simp] theorem putByte_st (s : State) (a : Nat) (b : Byte) : (s.putByte a b).st = s.st := rfl
@[simp] theorem putByte_fb (s : State) (a : Nat) (b : Byte) : (s.putByte a b).fb = s.fb := rfl
@[simp] theorem putByte_dirty (s : State) (a : Nat) (b : Byte) : (s.putByte a b).dirty = s.dirty := rfl
@[simp] theorem putByte_run (s : State) (a : Nat) (b : Byte) : (s.putByte a b).run = s.run := rfl
@[simp] theorem putByte_params (s : State) (a : Nat) (b : Byte) : (s.putByte a b).params = s.params := rfl
@[simp] theorem putByte_emitted (s : State) (a : Nat) (b : Byte) : (s.putByte a b).emitted = s.emitted := rfl
@[simp] theorem putByte_inputs (s : State) (a : Nat) (b : Byte) : (s.putByte a b).inputs = s.inputs := rfl
@[simp] theorem putByte_draws (s : State) (a : Nat) (b : Byte) : (s.putByte a b).draws = s.draws := rfl
@[simp] theorem putByte_reg (s : State) (a : Nat) (b : Byte) (k : RegIx) : (s.putByte a b).reg k = s.reg k := rfl

/-- Two states with the same fields are equal. -/
theorem State.ext_fields (s t : State) (hv : s.v = t.v) (hi : s.idx = t.idx) (hp : s.pc = t.pc) (hk : s.stk = t.stk)
    (hs : s.sp = t.sp) (hd : s.dt = t.dt) (ht : s.st = t.st) (hm : s.mem = t.mem) (hf : s.fb = t.fb)
    (hy : s.dirty = t.dirty) (hr : s.run = t.run) (ha : s.params = t.params) (he : s.emitted = t.emitted)
    (hn : s.inputs = t.inputs) (hw : s.draws = t.draws) : s = t := by
  cases s; cases t; simp_all

end Sys2Proof.Machine
end

