-- ==== Sys2Proof/Laws/Memory.lean ====
section
/-! SUPPORT. Memory: read after write, and that every memory operation keeps the canonical form. -/

namespace Sys2Proof.Machine

/-! ### The list -/

/-- Every address of a canonical list lies at or above its lower bound, so a lower address is not listed. -/
theorem Memory.lookup_below {p : Params} {lo k : Nat} {m : Memory} (h : Memory.wfFrom p lo m = true) (hk : k < lo) :
    Memory.lookup m k = none := by
  induction m generalizing lo with
  | nil => rfl
  | cons c m ih =>
    obtain ⟨a, b⟩ := c
    simp only [Memory.wfFrom, Bool.and_eq_true, decide_eq_true_eq] at h
    have hne : a ≠ k := by omega
    simp only [Memory.lookup, if_neg hne]
    exact ih h.2 (by omega)

/-- Storing at `k` changes no other address, whatever the list. -/
theorem Memory.lookup_put_ne {rest v : Byte} {k j : Nat} {m : Memory} (h : j ≠ k) :
    Memory.lookup (Memory.put rest k v m) j = Memory.lookup m j := by
  induction m with
  | nil => by_cases hv : v = rest <;> simp [Memory.put, Memory.lookup, hv, h.symm]
  | cons c m ih =>
    obtain ⟨a, b⟩ := c
    simp only [Memory.put]
    split
    · by_cases hv : v = rest <;> simp [Memory.lookup, hv, h.symm]
    · split
      · rename_i h1 h2
        subst h2
        by_cases hv : v = rest <;> simp [Memory.lookup, hv, h.symm]
      · simp only [Memory.lookup, ih]

/-- After a store, a canonical list reads the stored value. -/
theorem Memory.lookup_put_same {p : Params} {lo k : Nat} {v : Byte} {m : Memory}
    (h : Memory.wfFrom p lo m = true) :
    (Memory.lookup (Memory.put (resetByte p k) k v m) k).getD (resetByte p k) = v := by
  induction m generalizing lo with
  | nil => by_cases hv : v = resetByte p k <;> simp [Memory.put, Memory.lookup, hv]
  | cons c m ih =>
    obtain ⟨a, b⟩ := c
    have hw := h
    simp only [Memory.wfFrom, Bool.and_eq_true, decide_eq_true_eq] at h
    simp only [Memory.put]
    split
    · rename_i hlt
      by_cases hv : v = resetByte p k
      · have hne : a ≠ k := by omega
        simp [Memory.lookup, hv, hne, Memory.lookup_below h.2 (show k < a + 1 by omega)]
      · simp [Memory.lookup, hv]
    · split
      · rename_i h1 h2
        subst h2
        by_cases hv : v = resetByte p k
        · simp [hv, Memory.lookup_below h.2 (show k < k + 1 by omega)]
        · simp [Memory.lookup, hv]
      · rename_i h1 h2
        have hne : a ≠ k := by omega
        simp only [Memory.lookup, if_neg hne]
        exact ih h.2

/-- A lower bound can be lowered. -/
theorem Memory.wfFrom_mono {p : Params} {lo lo' : Nat} {m : Memory} (h : Memory.wfFrom p lo m = true)
    (hle : lo' ≤ lo) : Memory.wfFrom p lo' m = true := by
  cases m with
  | nil => rfl
  | cons c m =>
    obtain ⟨a, b⟩ := c
    simp only [Memory.wfFrom, Bool.and_eq_true, decide_eq_true_eq] at h ⊢
    exact ⟨⟨⟨by omega, h.1.1.2⟩, h.1.2⟩, h.2⟩

/-- Storing keeps the canonical form. -/
theorem Memory.put_wfFrom {p : Params} {lo k : Nat} {v : Byte} {m : Memory} (h : Memory.wfFrom p lo m = true)
    (hlo : lo ≤ k) (hk : k < memBytes) : Memory.wfFrom p lo (Memory.put (resetByte p k) k v m) = true := by
  induction m generalizing lo with
  | nil => by_cases hv : v = resetByte p k <;> simp [Memory.put, Memory.wfFrom, hv, hlo, hk]
  | cons c m ih =>
    obtain ⟨a, b⟩ := c
    have hw := h
    simp only [Memory.wfFrom, Bool.and_eq_true, decide_eq_true_eq] at h
    simp only [Memory.put]
    split
    · rename_i hlt
      by_cases hv : v = resetByte p k
      · rw [if_pos hv]; exact hw
      · rw [if_neg hv]
        simp only [Memory.wfFrom, Bool.and_eq_true, decide_eq_true_eq]
        exact ⟨⟨⟨hlo, hk⟩, hv⟩, ⟨⟨by omega, h.1.1.2⟩, h.1.2⟩, h.2⟩
    · split
      · rename_i h1 h2
        subst h2
        by_cases hv : v = resetByte p k
        · rw [if_pos hv]; exact Memory.wfFrom_mono h.2 (by omega)
        · rw [if_neg hv]
          simp only [Memory.wfFrom, Bool.and_eq_true, decide_eq_true_eq]
          exact ⟨⟨⟨hlo, hk⟩, hv⟩, h.2⟩
      · simp only [Memory.wfFrom, Bool.and_eq_true, decide_eq_true_eq]
        exact ⟨h.1, ih h.2 (by omega)⟩

/-! ### One byte -/

theorem byteAt_putByte_ne (s : State) {a k : Nat} (b : Byte) (h : k ≠ a) : (s.putByte a b).byteAt k = s.byteAt k := by
  simp only [State.byteAt, State.putByte, setMem_mem, setMem_params, Memory.lookup_put_ne h]

theorem byteAt_putByte_same {s : State} (h : s.MemCanonical) (a : Nat) (b : Byte) : (s.putByte a b).byteAt a = b := by
  simp only [State.byteAt, State.putByte, setMem_mem, setMem_params]
  exact Memory.lookup_put_same h

/-- A read after a store (R52): the value stored, and every other byte as before. -/
theorem byteAt_putByte {s : State} (h : s.MemCanonical) (a k : Nat) (b : Byte) :
    (s.putByte a b).byteAt k = if k = a then b else s.byteAt k := by
  by_cases hk : k = a
  · subst hk; rw [if_pos rfl, byteAt_putByte_same h]
  · rw [if_neg hk, byteAt_putByte_ne s b hk]

theorem putByte_memCanonical {s : State} (h : s.MemCanonical) {a : Nat} (b : Byte) (ha : a < memBytes) :
    (s.putByte a b).MemCanonical := Memory.put_wfFrom h (Nat.zero_le _) ha

/-! ### The checked accesses -/

theorem memRead?_eq_some {s : State} {a : Nat} (h : a < memBytes) : s.memRead? a = some (s.byteAt a) := by
  simp [State.memRead?, h]

theorem memRead?_eq_none {s : State} {a : Nat} (h : memBytes ≤ a) : s.memRead? a = none := by
  simp [State.memRead?, Nat.not_lt.mpr h]

/-- Whether a program store into `a` lands: everywhere but in the font region, and there under `allow` (R47). -/
def State.writable (s : State) (a : Nat) : Prop := fontBytes ≤ a ∨ s.params.fontStore = .allow

theorem setMem_writable (s : State) (m : Memory) (a : Nat) : (s.setMem m).writable a ↔ s.writable a := Iff.rfl

/-- Everything a program store of one byte can do (R44, R47). -/
theorem memWrite?_cases {s : State} {a : Nat} (h : a < memBytes) (b : Byte) :
    (s.writable a ∧ s.memWrite? a b = some (s.putByte a b)) ∨ (¬ s.writable a ∧ s.memWrite? a b = some s) := by
  unfold State.memWrite? State.writable
  by_cases hf : a < fontBytes
  · have : ¬ fontBytes ≤ a := by omega
    cases hs : s.params.fontStore <;> simp [h, hf, this]
  · have : fontBytes ≤ a := by omega
    simp [h, hf, this]

/-- A block read inside the extent answers the bytes (R43, R50). -/
theorem readBytes_eq {s : State} {a n : Nat} (h : a + n ≤ memBytes) :
    s.readBytes a n = .ok ((List.range n).map fun k => s.byteAt (a + k)) := by
  induction n generalizing a with
  | zero => rfl
  | succ n ih =>
    rw [State.readBytes, memRead?_eq_some (by omega)]
    simp only [ih (show a + 1 + n ≤ memBytes by omega), List.range_succ_eq_map, List.map_cons, List.map_map,
      Function.comp_def, Nat.add_zero]
    simp only [Nat.succ_eq_add_one, show ∀ k, a + 1 + k = a + (k + 1) from fun k => by omega]

/-- Everything a block store inside the extent does (R44, R47, R50): it changes memory alone, keeps the canonical
form, leaves every byte outside the block and every byte of the block that is not writable as it was, and leaves
the bytes given at the others. -/
theorem writeBytes_spec {s : State} {a : Nat} {bs : List Byte} (h : a + bs.length ≤ memBytes) :
    ∃ t, s.writeBytes a bs = .ok t ∧ t = s.setMem t.mem ∧ (s.MemCanonical → t.MemCanonical) ∧
      (∀ k, (k < a ∨ a + bs.length ≤ k ∨ ¬ s.writable k) → t.byteAt k = s.byteAt k) ∧
      (s.MemCanonical → ∀ k (hk : k < bs.length), s.writable (a + k) → t.byteAt (a + k) = bs[k]) := by
  induction bs generalizing s a with
  | nil => exact ⟨s, rfl, rfl, id, fun _ _ => rfl, fun _ k hk => absurd hk (Nat.not_lt_zero k)⟩
  | cons b bs ih =>
    simp only [List.length_cons] at h
    rcases memWrite?_cases (s := s) (show a < memBytes by omega) b with ⟨hw, he⟩ | ⟨hw, he⟩
    · obtain ⟨t, h1, h2, h3, h4, h5⟩ := ih (s := s.putByte a b) (a := a + 1) (by omega)
      have hwr : ∀ k, (s.putByte a b).writable k ↔ s.writable k := fun k => Iff.rfl
      refine ⟨t, by rw [State.writeBytes, he]; exact h1, by rw [h2]; rfl,
        fun hc => h3 (putByte_memCanonical hc b (by omega)), fun k hk => ?_, fun hc k hk hwk => ?_⟩
      · simp only [List.length_cons] at hk
        have hne : k ≠ a := by
          rintro rfl
          rcases hk with hk | hk | hk
          · omega
          · omega
          · exact hk hw
        rw [h4 k (by rw [hwr]; rcases hk with hk | hk | hk
                     · exact .inl (by omega)
                     · exact .inr (.inl (by omega))
                     · exact .inr (.inr hk)), byteAt_putByte_ne s b hne]
      · have hc' := putByte_memCanonical hc b (show a < memBytes by omega)
        cases k with
        | zero =>
          rw [Nat.add_zero, h4 a (.inl (by omega)), byteAt_putByte_same hc]
          rfl
        | succ k =>
          have := h5 hc' k (by simpa using hk) (by rw [hwr]; rwa [show a + 1 + k = a + (k + 1) by omega])
          rw [show a + (k + 1) = a + 1 + k by omega, this]
          rfl
    · obtain ⟨t, h1, h2, h3, h4, h5⟩ := ih (s := s) (a := a + 1) (by omega)
      refine ⟨t, by rw [State.writeBytes, he]; exact h1, h2, h3, fun k hk => ?_, fun hc k hk hwk => ?_⟩
      · simp only [List.length_cons] at hk
        by_cases hka : k = a
        · exact h4 k (.inr (.inr (hka ▸ hw)))
        · exact h4 k (by rcases hk with hk | hk | hk
                         · exact .inl (by omega)
                         · exact .inr (.inl (by omega))
                         · exact .inr (.inr hk))
      · cases k with
        | zero => exact absurd hwk (by simpa using hw)
        | succ k =>
          have := h5 hc k (by simpa using hk) (by rwa [show a + 1 + k = a + (k + 1) by omega])
          rw [show a + (k + 1) = a + 1 + k by omega, this]
          rfl

/-- The ROM load changes memory alone, and below its first address nothing (R272). -/
theorem loadBytes_eq (s : State) (a : Nat) (bs : List Byte) : s.loadBytes a bs = s.setMem (s.loadBytes a bs).mem := by
  induction bs generalizing s a with
  | nil => rfl
  | cons b bs ih => rw [State.loadBytes, ih]; rfl

theorem loadBytes_byteAt_below {s : State} {a k : Nat} (bs : List Byte) (h : k < a) :
    (s.loadBytes a bs).byteAt k = s.byteAt k := by
  induction bs generalizing s a with
  | nil => rfl
  | cons b bs ih => rw [State.loadBytes, ih (by omega), byteAt_putByte_ne s b (by omega)]

theorem loadBytes_memCanonical {s : State} {a : Nat} {bs : List Byte} (h : s.MemCanonical)
    (ha : a + bs.length ≤ memBytes) : (s.loadBytes a bs).MemCanonical := by
  induction bs generalizing s a with
  | nil => exact h
  | cons b bs ih =>
    simp only [List.length_cons] at ha
    exact ih (putByte_memCanonical h b (by omega)) (by omega)

theorem reset_memCanonical : State.reset.MemCanonical := rfl

end Sys2Proof.Machine
end

