-- ==== Sys2Proof/Laws/Ops.lean ====
section
/-! SUPPORT. One lemma for each shared operation, saying everything it can do. -/

namespace Sys2Proof.Machine

/-! ### Registers and flags -/

theorem setV_reg (s : State) (w : Vector Byte 16) (k : RegIx) : (s.setV w).reg k = w.get k := rfl

/-- A register write changes that register alone (R10). -/
theorem setReg_reg (s : State) (r k : RegIx) (b : Byte) : (s.setReg r b).reg k = if k = r then b else s.reg k := by
  simp only [State.setReg, State.reg, setV_v, Vector.get_eq_getElem, Vector.getElem_set]
  by_cases h : k = r
  · subst h; simp
  · have : r.val ≠ k.val := fun e => h (Fin.ext e.symm)
    simp [h, this]

@[simp] theorem setReg_reg_same (s : State) (r : RegIx) (b : Byte) : (s.setReg r b).reg r = b := by
  rw [setReg_reg, if_pos rfl]

theorem setReg_reg_ne (s : State) {r k : RegIx} (b : Byte) (h : k ≠ r) : (s.setReg r b).reg k = s.reg k := by
  rw [setReg_reg, if_neg h]

/-- VF first, the result second: with X = 0xF the result wins (R141). -/
theorem setFlagAndReg_reg (s : State) (x k : RegIx) (f : Bool) (b : Byte) :
    (s.setFlagAndReg x f b).reg k = if k = x then b else if k = vf then flagByte f else s.reg k := by
  rw [setFlagAndReg_eq, setReg_reg, setReg_reg]

theorem flagByte_toNat (f : Bool) : (flagByte f).toNat = if f then 1 else 0 := by cases f <;> rfl

/-- Consecutive register writes: those of the range hold the bytes, the others are as before (R207). -/
theorem writeRegs_getElem (v : Vector Byte 16) (k : Nat) (bs : List Byte) (j : Nat) (hj : j < 16) :
    (writeRegs v k bs)[j] = if h : k ≤ j ∧ j < k + bs.length then bs[j - k]'(by omega) else v[j] := by
  induction bs generalizing v k with
  | nil => simp [writeRegs]
  | cons b bs ih =>
    simp only [writeRegs, ih, List.length_cons]
    by_cases h1 : k + 1 ≤ j ∧ j < k + 1 + bs.length
    · have h2 : k ≤ j ∧ j < k + (bs.length + 1) := by omega
      rw [dif_pos h1, dif_pos h2]
      have : j - k = (j - (k + 1)) + 1 := by omega
      simp only [this, List.getElem_cons_succ]
    · rw [dif_neg h1, Vector.getElem_setIfInBounds]
      by_cases h3 : k = j
      · subst h3; simp
      · have h2 : ¬ (k ≤ j ∧ j < k + (bs.length + 1)) := by omega
        rw [dif_neg h2, if_neg h3]

/-! ### The call stack -/

/-- Everything a push can do (R122, R123). -/
theorem push?_cases (s : State) (a : Word) :
    (s.sp.val < 16 ∧ ∃ t, s.push? a = some t ∧ t = { s with stk := t.stk, sp := t.sp } ∧ t.sp.val = s.sp.val + 1 ∧
      ∀ k : Fin 16, t.stk.get k = if k.val = s.sp.val then a else s.stk.get k) ∨
    (s.sp.val = 16 ∧ s.push? a = none) := by
  by_cases h : s.sp.val < 16
  · refine .inl ⟨h, _, dif_pos h, rfl, rfl, fun k => ?_⟩
    simp only [Vector.get_eq_getElem, Vector.getElem_set]
    by_cases hk : k.val = s.sp.val
    · simp [hk]
    · have : s.sp.val ≠ k.val := fun e => hk e.symm
      simp [hk, this]
  · exact .inr ⟨by have := s.sp.isLt; omega, dif_neg h⟩

/-- Everything a pop can do (R124, R125): the slots stay (R16). -/
theorem pop?_cases (s : State) :
    (0 < s.sp.val ∧ ∃ a t, s.pop? = some (a, t) ∧ t = { s with sp := t.sp } ∧ t.sp.val = s.sp.val - 1 ∧
      ∀ k : Fin 16, k.val + 1 = s.sp.val → a = s.stk.get k) ∨
    (s.sp.val = 0 ∧ s.pop? = none) := by
  by_cases h : 0 < s.sp.val
  · refine .inl ⟨h, _, _, dif_pos h, rfl, rfl, fun k hk => ?_⟩
    have : s.sp.val - 1 = k.val := by omega
    simp only [Vector.get_eq_getElem, this]
  · exact .inr ⟨by omega, dif_neg h⟩

/-! ### Raising an event -/

/-- Raising a fatal event changes the run state and the outputs alone (R239). -/
theorem raise_fatal (s : State) {e : Event} (h : e.fatal = true) :
    s.raise e = { s with run := .faulted, emitted := .event e :: s.emitted } := by
  rw [State.raise, if_pos h]; rfl

/-- Raising any other event changes the outputs alone (R239). -/
theorem raise_nonfatal (s : State) {e : Event} (h : e.fatal = false) :
    s.raise e = { s with emitted := .event e :: s.emitted } := by
  rw [State.raise, if_neg (by rw [h]; decide)]; rfl

@[simp] theorem raise_emitted (s : State) (e : Event) : (s.raise e).emitted = .event e :: s.emitted := by
  unfold State.raise; split <;> rfl

theorem raise_run (s : State) (e : Event) : (s.raise e).run = if e.fatal then .faulted else s.run := by
  unfold State.raise; split <;> rfl

/-- An event writes no architectural register (R231). -/
theorem raise_frame (s : State) (e : Event) :
    s.raise e = { s with run := (s.raise e).run, emitted := (s.raise e).emitted } := by
  unfold State.raise; split <;> rfl

/-! ### The address checks -/

/-- Check (a) of R174 and R208 raises a fatal event exactly when an address of the block exceeds 0xFFF. -/
theorem boundsEvent_cases (s : State) (kind : AccessKind) (n : Nat) :
    (s.idx.toNat + n ≤ memBytes ∧ s.boundsEvent kind n = none) ∨
    (memBytes < s.idx.toNat + n ∧
      s.boundsEvent kind n = some (.memoryAccessFault kind s.firstOutside s.pc)) := by
  unfold State.boundsEvent State.ea
  by_cases h : memBytes < s.idx.toNat + n
  · exact .inr ⟨h, if_pos h⟩
  · exact .inl ⟨by omega, if_neg h⟩

/-- Everything the checks of a store can answer (R174, R208). -/
theorem storeEvent_cases (s : State) (n : Nat) :
    (s.idx.toNat + n ≤ memBytes ∧ (fontBytes ≤ s.idx.toNat ∨ s.params.fontStore ≠ .fault) ∧
      s.storeEvent n = none) ∨
    (memBytes < s.idx.toNat + n ∧ s.storeEvent n = some (.memoryAccessFault .store s.firstOutside s.pc)) ∨
    (s.idx.toNat + n ≤ memBytes ∧ s.idx.toNat < fontBytes ∧ s.params.fontStore = .fault ∧
      s.storeEvent n = some (.memoryAccessFault .fontStore s.idx.toNat s.pc)) := by
  rcases boundsEvent_cases s .store n with ⟨hb, he⟩ | ⟨hb, he⟩
  · by_cases hf : s.idx.toNat < fontBytes ∧ s.params.fontStore = .fault
    · exact .inr (.inr ⟨hb, hf.1, hf.2, by simp only [State.storeEvent, he, State.fontEvent, if_pos hf]⟩)
    · refine .inl ⟨hb, ?_, by simp only [State.storeEvent, he, State.fontEvent, if_neg hf]⟩
      by_cases h : fontBytes ≤ s.idx.toNat
      · exact .inl h
      · exact .inr fun e => hf ⟨by omega, e⟩
  · exact .inr (.inl ⟨hb, by simp only [State.storeEvent, he]⟩)

/-- Everything a checked store through `I` can do (R173, R174, R206, R208): it raises a fatal event before any
byte is written, or stores the whole block. It never faults. -/
theorem storeAtIdx_cases (s : State) (bs : List Byte) (k : State → State) :
    (∃ e, e.fatal = true ∧ s.storeEvent bs.length = some e ∧ storeAtIdx s bs k = .next (s.raise e)) ∨
    (s.storeEvent bs.length = none ∧ ∃ t, s.writeBytes s.idx.toNat bs = .ok t ∧ storeAtIdx s bs k = .next (k t)) := by
  rcases storeEvent_cases s bs.length with ⟨hb, _, he⟩ | ⟨_, he⟩ | ⟨_, _, _, he⟩
  · obtain ⟨t, ht, _⟩ := writeBytes_spec (s := s) hb
    refine .inr ⟨he, t, ht, ?_⟩
    have ht' : s.writeBytes (s.ea 0) bs = .ok t := ht
    simp only [storeAtIdx, he, ht']
  · exact .inl ⟨_, rfl, he, by simp only [storeAtIdx, he]⟩
  · exact .inl ⟨_, rfl, he, by simp only [storeAtIdx, he]⟩

/-! ### The stages after execute -/

/-- The decrement is clamped at 0 (R244). -/
theorem countDown_toNat (t : Byte) : (countDown t).toNat = t.toNat - 1 := by
  unfold countDown
  split
  · rename_i h; subst h; rfl
  · rename_i h
    have : t.toNat ≠ 0 := fun e => h (BitVec.eq_of_toNat_eq e)
    have := t.isLt
    rw [BitVec.toNat_sub]
    simp
    omega

/-- Everything the rest of a tick does when no fatal event ended it (R107, R108, R244 to R246, R252). -/
theorem finishTick_running {s : State} (h : s.run = .running) :
    s.finishTick = { s with
      dt := countDown s.dt, st := countDown s.st, dirty := false
      emitted := (if s.dirty then [.frame s.fb] else []) ++ ((if s.st = 1 then [.soundTrigger] else []) ++ s.emitted)
      inputs := s.inputs.tail, draws := s.draws + 1 } := by
  unfold State.finishTick State.renderStage State.timerStage
  rw [h]
  by_cases hd : s.dirty = true <;> by_cases hs : s.st = 1#8 <;>
    simp [hd, hs, State.consumeInput, State.setDirty, State.setSt, State.setDt, State.emit, h]

theorem finishTick_halted {s : State} (h : s.run ≠ .running) : s.finishTick = s := by
  unfold State.finishTick
  cases hr : s.run <;> simp_all

end Sys2Proof.Machine
end

