-- ==== Sys2Proof/Laws/Display.lean ====
section
/-! SUPPORT. The plot engine: one bit, one byte, the row loop, and where it ends. -/

namespace Sys2Proof.Machine

/-- Inverting a pixel changes that pixel alone (R186). -/
theorem pixel_invert (fb : Frame) (x a : Fin 64) (y b : Fin 32) :
    Frame.pixel (Frame.invert fb x y) a b = (Frame.pixel fb a b ^^ decide (a = x ∧ b = y)) := by
  unfold Frame.invert Frame.pixel
  simp only [Vector.get_eq_getElem, Vector.getElem_set]
  by_cases hb : b = y
  · subst hb
    by_cases ha : a = x
    · subst ha; simp
    · have : x.val ≠ a.val := fun e => ha (Fin.ext e.symm)
      simp [ha, this]
  · have : y.val ≠ b.val := fun e => hb (Fin.ext e.symm)
    simp [hb, this]

theorem pixel_blankFrame (x : Fin 64) (y : Fin 32) : Frame.pixel blankFrame x y = false := by
  simp [Frame.pixel, blankFrame, Vector.get_eq_getElem]

/-- Two frames with the same pixels are equal. -/
theorem frame_ext {f g : Frame} (h : ∀ x y, Frame.pixel f x y = Frame.pixel g x y) : f = g := by
  apply Vector.ext
  intro y hy
  apply Vector.ext
  intro x hx
  exact h ⟨x, hx⟩ ⟨y, hy⟩

/-- Everything plotting one bit does (R185, R186). -/
theorem plotBit_pixel (x y : Nat) (q : Plot) (a : Fin 64) (b : Fin 32) :
    Frame.pixel (plotBit x y q).fb a b = (Frame.pixel q.fb a b ^^ decide (a = wrapX x ∧ b = wrapY y)) :=
  pixel_invert _ _ _ _ _

theorem wrapX_eq_iff (x : Nat) (a : Fin 64) : a = wrapX x ↔ x % 64 = a.val := by
  constructor
  · rintro rfl; rfl
  · intro h; exact Fin.ext h.symm

theorem wrapY_eq_iff (y : Nat) (b : Fin 32) : b = wrapY y ↔ y % 32 = b.val := by
  constructor
  · rintro rfl; rfl
  · intro h; exact Fin.ext h.symm

/-- The row loop ends at the first row address outside `MEM`, if one of its rows has one (R184). -/
theorem drawRows_outside (s : State) (x y n r : Nat) (q : Plot) :
    (drawRows s x y n r q).2 =
      if memBytes < s.ea (r + n) ∧ 0 < n then some (max (s.ea r) memBytes) else none := by
  induction n generalizing r q with
  | zero => simp [drawRows]
  | succ n ih =>
    rw [drawRows]
    by_cases h : s.ea r < memBytes
    · rw [if_neg (by omega)]
      simp only [ih]
      unfold State.ea at *
      by_cases h2 : memBytes < s.idx.toNat + (r + (n + 1))
      · have h3 : memBytes < s.idx.toNat + (r + 1 + n) ∧ 0 < n := by
          constructor
          · omega
          · rcases n with _ | n
            · omega
            · omega
        rw [if_pos h3, if_pos ⟨h2, by omega⟩]
        congr 1
        omega
      · rw [if_neg (by omega), if_neg (by omega)]
    · rw [if_pos (by omega)]
      unfold State.ea at *
      rw [if_pos ⟨by omega, by omega⟩]
      simp only [Option.some.injEq]
      omega

/-- One of the first `n` bit columns of a sprite byte, drawn at column `x` and row `y`, lands on a pixel. -/
def RowHits (b : Byte) (x y n : Nat) (px : Fin 64) (py : Fin 32) : Prop :=
  ∃ c, c < n ∧ b.getLsbD (7 - c) = true ∧ (x + c) % 64 = px.val ∧ y % 32 = py.val

/-- What plotting does to a plot, when the pixels that it lands on are those of `hits`, each hit once. -/
structure PlotStep (hits : Fin 64 → Fin 32 → Prop) (q q' : Plot) : Prop where
  hit : ∀ px py, hits px py → Frame.pixel q'.fb px py = !Frame.pixel q.fb px py
  miss : ∀ px py, ¬ hits px py → Frame.pixel q'.fb px py = Frame.pixel q.fb px py
  coll : q'.coll = true ↔ q.coll = true ∨ ∃ px py, hits px py ∧ Frame.pixel q.fb px py = true
  plotted : q'.plotted = true ↔ q.plotted = true ∨ ∃ px py, hits px py

/-- Plotting nothing. -/
theorem PlotStep.none {hits : Fin 64 → Fin 32 → Prop} (q : Plot) (h : ∀ px py, ¬ hits px py) : PlotStep hits q q :=
  ⟨fun px py hp => absurd hp (h px py), fun _ _ _ => rfl,
    ⟨.inl, fun hc => hc.elim id fun ⟨px, py, hp, _⟩ => absurd hp (h px py)⟩,
    ⟨.inl, fun hc => hc.elim id fun ⟨px, py, hp⟩ => absurd hp (h px py)⟩⟩

/-- Two plots one after the other, on pixels that no two of them share. -/
theorem PlotStep.trans {f g k : Fin 64 → Fin 32 → Prop} {q q' q'' : Plot} (h : PlotStep f q q') (h' : PlotStep g q' q'')
    (hk : ∀ px py, k px py ↔ f px py ∨ g px py) (disjoint : ∀ px py, f px py → ¬ g px py) : PlotStep k q q'' := by
  refine ⟨fun px py hp => ?_, fun px py hp => ?_, ?_, ?_⟩
  · rcases (hk px py).mp hp with hf | hg
    · rw [h'.miss px py (disjoint px py hf), h.hit px py hf]
    · rw [h'.hit px py hg, h.miss px py fun hf => disjoint px py hf hg]
  · rw [h'.miss px py fun hg => hp ((hk px py).mpr (.inr hg)), h.miss px py fun hf => hp ((hk px py).mpr (.inl hf))]
  · rw [h'.coll, h.coll]
    constructor
    · rintro ((hq | ⟨px, py, hf, hp⟩) | ⟨px, py, hg, hp⟩)
      · exact .inl hq
      · exact .inr ⟨px, py, (hk px py).mpr (.inl hf), hp⟩
      · exact .inr ⟨px, py, (hk px py).mpr (.inr hg), by rwa [h.miss px py fun hf => disjoint px py hf hg] at hp⟩
    · rintro (hq | ⟨px, py, hh, hp⟩)
      · exact .inl (.inl hq)
      · rcases (hk px py).mp hh with hf | hg
        · exact .inl (.inr ⟨px, py, hf, hp⟩)
        · exact .inr ⟨px, py, hg, by rwa [h.miss px py fun hf => disjoint px py hf hg]⟩
  · rw [h'.plotted, h.plotted]
    constructor
    · rintro ((hq | ⟨px, py, hf⟩) | ⟨px, py, hg⟩)
      · exact .inl hq
      · exact .inr ⟨px, py, (hk px py).mpr (.inl hf)⟩
      · exact .inr ⟨px, py, (hk px py).mpr (.inr hg)⟩
    · rintro (hq | ⟨px, py, hh⟩)
      · exact .inl (.inl hq)
      · rcases (hk px py).mp hh with hf | hg
        · exact .inl (.inr ⟨px, py, hf⟩)
        · exact .inr ⟨px, py, hg⟩

/-- Plotting one bit hits one pixel (R185, R186). -/
theorem plotBit_step (x y : Nat) (q : Plot) :
    PlotStep (fun px py => px = wrapX x ∧ py = wrapY y) q (plotBit x y q) := by
  refine ⟨fun px py h => ?_, fun px py h => ?_, ?_, ?_⟩
  · rw [plotBit_pixel, decide_eq_true h, Bool.xor_true]
  · rw [plotBit_pixel, decide_eq_false h, Bool.xor_false]
  · show (q.coll || _) = true ↔ _
    rw [Bool.or_eq_true]
    exact ⟨fun h => h.imp id fun hp => ⟨_, _, ⟨rfl, rfl⟩, hp⟩, fun h => h.imp id fun ⟨_, _, ⟨h1, h2⟩, hp⟩ => h1 ▸ h2 ▸ hp⟩
  · exact ⟨fun _ => .inr ⟨_, _, rfl, rfl⟩, fun _ => rfl⟩

/-- Plotting a sprite byte hits the pixels of its 1 bits, each once, since a sprite is 8 < 64 columns wide (R183, R185). -/
theorem plotRow_step (b : Byte) (x y : Nat) (q : Plot) : PlotStep (RowHits b x y 8) q (plotRow b x y q) := by
  have : ∀ n, n ≤ 8 → PlotStep (RowHits b x y n) q
      ((List.range n).foldl (fun q c => if b.getMsbD c then plotBit (x + c) y q else q) q) := by
    intro n
    induction n with
    | zero => exact fun _ => .none q fun px py ⟨c, hc, _⟩ => absurd hc (Nat.not_lt_zero c)
    | succ n ih =>
      intro hn
      have ih := ih (by omega)
      rw [List.range_succ, List.foldl_append, List.foldl_cons, List.foldl_nil]
      have hbit : b.getMsbD n = b.getLsbD (7 - n) := by
        rw [BitVec.getMsbD, show decide (n < 8) = true from decide_eq_true (by omega), Bool.true_and]
      by_cases hb : b.getMsbD n = true
      · rw [if_pos hb]
        refine ih.trans (plotBit_step _ _ _) (fun px py => ?_) fun px py ⟨c, hc, _, h1, _⟩ ⟨h2, _⟩ => ?_
        · rw [wrapX_eq_iff, wrapY_eq_iff]
          constructor
          · rintro ⟨c, hc, h⟩
            by_cases hcn : c = n
            · subst hcn; exact .inr h.2
            · exact .inl ⟨c, by omega, h⟩
          · rintro (⟨c, hc, h⟩ | h)
            · exact ⟨c, by omega, h⟩
            · exact ⟨n, by omega, hbit ▸ hb, h⟩
        · rw [wrapX_eq_iff] at h2; omega
      · rw [if_neg hb]
        refine ih.trans (.none (hits := fun _ _ => False) _ fun _ _ => id) (fun px py => ?_) fun _ _ _ => id
        rw [or_false]
        constructor
        · rintro ⟨c, hc, h, h'⟩
          by_cases hcn : c = n
          · subst hcn; exact absurd (hbit ▸ h) hb
          · exact ⟨c, by omega, h, h'⟩
        · rintro ⟨c, hc, h⟩; exact ⟨c, by omega, h⟩
  exact this 8 (by decide)

/-- The pixels that the rows `r`..`r+n-1` of a draw hit: those of the rows inside `MEM` (R184). -/
def RowsHit (s : State) (x y n r : Nat) (px : Fin 64) (py : Fin 32) : Prop :=
  ∃ k, k < n ∧ s.idx.toNat + (r + k) ≤ 0xFFF ∧ RowHits (s.byteAt (s.idx.toNat + (r + k))) x (y + (r + k)) 8 px py

/-- The row loop hits the pixels of its rows inside `MEM`, each once, since a sprite is at most 15 < 32 rows high
(R184, R185). -/
theorem drawRows_step (s : State) (x y n r : Nat) (q : Plot) (hn : n ≤ 32) :
    PlotStep (RowsHit s x y n r) q (drawRows s x y n r q).1 := by
  induction n generalizing r q with
  | zero => exact .none q fun px py ⟨k, hk, _⟩ => absurd hk (Nat.not_lt_zero k)
  | succ n ih =>
    rw [drawRows]
    by_cases h : s.ea r < memBytes
    · rw [if_neg (by omega)]
      refine (plotRow_step _ _ _ _).trans (ih (r + 1) _ (by omega)) (fun px py => ?_) ?_
      · constructor
        · rintro ⟨k, hk, hin, hh⟩
          cases k with
          | zero => exact .inl hh
          | succ k => exact .inr ⟨k, by omega, by omega, by rwa [show r + 1 + k = r + (k + 1) by omega]⟩
        · rintro (hh | ⟨k, hk, hin, hh⟩)
          · exact ⟨0, by omega, by unfold State.ea memBytes at h; omega, hh⟩
          · exact ⟨k + 1, by omega, by omega, by rwa [show r + (k + 1) = r + 1 + k by omega]⟩
      · rintro px py ⟨_, _, _, _, h1⟩ ⟨k, hk, _, _, _, _, _, h2⟩
        omega
    · rw [if_pos (by omega)]
      refine .none q fun px py ⟨k, _, hin, _⟩ => ?_
      unfold State.ea memBytes at h; omega

end Sys2Proof.Machine
end

