-- ==== Sys2Proof/Laws/Tick.lean ====
section
/-! SUPPORT. What one step can do, said once. -/

namespace Sys2Proof.Machine

/-- A running machine with no stop signal whose next word can be fetched and decodes to `i`. -/
theorem State.ReadyFor.fetchWord {s : State} {i : Instr} (h : s.ReadyFor i) :
    s.fetchWord = some (wordOfBytes (s.byteAt s.pc.toNat) (s.byteAt (s.pc.toNat + 1))) :=
  if_neg (Nat.not_lt.mpr h.fetchable)

/-- Everything a step that answers a next state can do (R100, R101, R103, R109, R232). -/
theorem step_cases {s t : State} (h : step s = .next t) :
    (s.run ≠ .running ∧ t = s) ∨
    (s.run = .running ∧ s.tickInput.stop = true ∧ t = s.setRun .stopped) ∨
    (s.run = .running ∧ s.tickInput.stop = false ∧ 0x0FFE < s.pc.toNat ∧
      t = (s.raise (.memoryAccessFault .fetch s.pc.toNat s.pc))) ∨
    (s.run = .running ∧ s.tickInput.stop = false ∧ s.pc.toNat ≤ 0x0FFE ∧ ∃ w,
      decode s.params (wordOfBytes (s.byteAt s.pc.toNat) (s.byteAt (s.pc.toNat + 1))) = .unknown w ∧
      t = s.raise (.unknownOpcode w s.pc)) ∨
    (∃ i u, s.ReadyFor i ∧ exec i s = .next u ∧ t = u.finishTick) := by
  have hraise : ∀ e : Event, e.fatal = true → (s.raise e).finishTick = s.raise e := fun e he =>
    finishTick_halted (by rw [raise_run, if_pos he]; decide)
  unfold step State.tick at h
  cases hr : s.run with
  | stopped => rw [hr] at h; cases h; exact .inl ⟨by decide, rfl⟩
  | faulted => rw [hr] at h; cases h; exact .inl ⟨by decide, rfl⟩
  | running =>
    rw [hr] at h
    dsimp only at h
    cases hs : s.tickInput.stop with
    | true =>
      rw [hs, if_pos rfl] at h
      cases h
      exact .inr (.inl ⟨rfl, rfl, rfl⟩)
    | false =>
      rw [hs, if_neg (by decide)] at h
      by_cases hp : 0x0FFE < s.pc.toNat
      · rw [show s.fetchWord = none from if_pos hp] at h
        cases h
        exact .inr (.inr (.inl ⟨rfl, rfl, hp, hraise _ rfl⟩))
      · rw [show s.fetchWord = some _ from if_neg hp] at h
        dsimp only [State.runWord] at h
        cases hd : decode s.params (wordOfBytes (s.byteAt s.pc.toNat) (s.byteAt (s.pc.toNat + 1))) with
        | unknown w =>
          rw [hd] at h
          cases h
          exact .inr (.inr (.inr (.inl ⟨rfl, rfl, by omega, w, rfl, hraise _ rfl⟩)))
        | instr i =>
          rw [hd] at h
          dsimp only at h
          cases he : exec i s with
          | next u =>
            rw [he] at h
            cases h
            exact .inr (.inr (.inr (.inr ⟨i, u, ⟨hr, hs, by omega, hd⟩, he, rfl⟩)))
          | fault r => rw [he] at h; cases h
          | refused r => rw [he] at h; cases h

end Sys2Proof.Machine
end

