-- ==== Sys2Proof/Laws/Exec.lean ====
section
/-! SUPPORT. What an instruction that answers a next state can do, said once for all of them: a fatal event, or a
completion that leaves the run state, the parameters and the inputs alone. -/

namespace Sys2Proof.Machine

/-- The shape of a completion: the fields that stay, at most one event, stores through `I` alone, and where `PC` and
the call stack can go. -/
structure Completes (i : Instr) (s t : State) : Prop where
  kept : t = { s with
    v := t.v, idx := t.idx, pc := t.pc, stk := t.stk, sp := t.sp, dt := t.dt, st := t.st
    mem := t.mem, fb := t.fb, dirty := t.dirty, emitted := t.emitted }
  emits : t.emitted = s.emitted ∨ ∃ e : Event, e.fatal = false ∧ t.emitted = .event e :: s.emitted
  stores : t.mem = s.mem ∨ ((∃ x, i = .ldB x ∨ i = .ldMemVx x) ∧ ∃ bs u, s.storeEvent bs.length = none ∧
    s.writeBytes s.idx.toNat bs = .ok u ∧ t.mem = u.mem)
  stack :
    (t.stk = s.stk ∧
      (s.pc.toNat ≤ 0x0FFE → (∀ k : Fin 16, (s.stk.get k).toNat ≤ 0x1000) → t.pc.toNat ≤ 0x10FE)) ∨
    (∃ nnn, i = .call nnn ∧ t.pc = zextAddr nnn ∧ s.sp.val < 16 ∧
      ∀ k : Fin 16, t.stk.get k = if k.val = s.sp.val then s.pc + 2 else s.stk.get k)

theorem advanced_le {a : Word} (h : a.toNat ≤ 0x0FFE) : (a + 2).toNat ≤ 0x10FE := by
  rw [BitVec.toNat_add]; simp; omega

theorem skipped_le {a : Word} (h : a.toNat ≤ 0x0FFE) : (a + 4).toNat ≤ 0x10FE := by
  rw [BitVec.toNat_add]; simp; omega

theorem zextAddr_le (nnn : Addr12) : (zextAddr nnn).toNat ≤ 0x0FFF := by simp [zextAddr]; omega

/-- The block transfers change `I` and `PC` last. -/
theorem bumpIdx_advance (u : State) (x : RegIx) :
    (u.bumpIdx x).advance = { u with idx := (u.bumpIdx x).idx, pc := u.pc + 2 } := by
  unfold State.bumpIdx; split <;> rfl

/-- A checked store that stores lies inside the extent. -/
theorem storeEvent_none_le {s : State} {n : Nat} (h : s.storeEvent n = none) : s.idx.toNat + n ≤ memBytes := by
  rcases storeEvent_cases s n with ⟨hb, _⟩ | ⟨_, he⟩ | ⟨hb, _⟩
  · exact hb
  · rw [h] at he; cases he
  · exact hb

/-- A completion that stays on the call stack and stores nothing. -/
theorem Completes.plain {i : Instr} {s t : State}
    (kept : t = { s with
      v := t.v, idx := t.idx, pc := t.pc, sp := t.sp, dt := t.dt, st := t.st, fb := t.fb, dirty := t.dirty
      emitted := t.emitted })
    (emits : t.emitted = s.emitted ∨ ∃ e : Event, e.fatal = false ∧ t.emitted = .event e :: s.emitted)
    (pc : s.pc.toNat ≤ 0x0FFE → (∀ k : Fin 16, (s.stk.get k).toNat ≤ 0x1000) → t.pc.toNat ≤ 0x10FE) :
    Completes i s t :=
  ⟨by rw [kept], emits, .inl (by rw [kept]), .inl ⟨by rw [kept], pc⟩⟩

/-- A completion after a block store. -/
theorem Completes.stored {i : Instr} {s u t : State} {bs : List Byte} (hi : ∃ x, i = .ldB x ∨ i = .ldMemVx x)
    (he : s.storeEvent bs.length = none) (hu : s.writeBytes s.idx.toNat bs = .ok u)
    (ht : t = { u with idx := t.idx, pc := u.pc + 2 }) : Completes i s t := by
  obtain ⟨u', hu', hm, _⟩ := writeBytes_spec (storeEvent_none_le he)
  rw [hu] at hu'
  cases hu'
  rw [ht, hm]
  exact ⟨rfl, .inl rfl, .inr ⟨hi, bs, u, he, hu, rfl⟩, .inl ⟨rfl, fun h _ => advanced_le h⟩⟩

/-- Everything an instruction that answers a next state can do. -/
theorem exec_cases {i : Instr} {s t : State} (h : exec i s = .next t) :
    (∃ e, e.fatal = true ∧ t = s.haltedBy e) ∨ Completes i s t := by
  cases i
  case ret =>
    simp only [exec, execRet] at h
    rcases pop?_cases s with ⟨hp, a, u, hu, he, _, hk⟩ | ⟨_, hu⟩
    · rw [hu] at h; cases h
      have ha := hk ⟨s.sp.val - 1, by omega⟩ (Nat.sub_add_cancel hp)
      refine .inr (.plain (by rw [he]; rfl) (.inl (by rw [he]; rfl)) fun _ hb => ?_)
      rw [setPc_pc, ha]
      exact Nat.le_trans (hb _) (by decide)
    · rw [hu] at h; cases h
      rw [raise_nonfatal _ rfl]
      exact .inr (.plain rfl (.inr ⟨_, rfl, rfl⟩) fun h _ => Nat.le_trans h (by decide))
  case call nnn =>
    simp only [exec, execCall] at h
    rcases push?_cases s (s.pc + 2) with ⟨hp, u, hu, he, _, hk⟩ | ⟨_, hu⟩
    · rw [hu] at h; cases h
      exact .inr ⟨by rw [he]; rfl, .inl (by rw [he]; rfl), .inl (by rw [he]; rfl), .inr ⟨nnn, rfl, rfl, hp, hk⟩⟩
    · rw [hu] at h; cases h
      rw [raise_nonfatal _ rfl]
      exact .inr (.plain rfl (.inr ⟨_, rfl, rfl⟩) fun h _ => Nat.le_trans h (by decide))
  case ldB x =>
    rcases storeAtIdx_cases s (bcdDigits (s.reg x)) State.advance with ⟨e, hf, _, h'⟩ | ⟨he, u, hu, h'⟩
    · rw [exec, execLdB, h'] at h; cases h
      exact .inl ⟨e, hf, raise_fatal _ hf⟩
    · rw [exec, execLdB, h'] at h; cases h
      exact .inr (.stored ⟨x, .inl rfl⟩ he hu rfl)
  case ldMemVx x =>
    rcases storeAtIdx_cases s (s.v.toList.take (x.val + 1)) (fun t => (t.bumpIdx x).advance) with
      ⟨e, hf, _, h'⟩ | ⟨he, u, hu, h'⟩
    · rw [exec, execLdMemVx, h'] at h; cases h
      exact .inl ⟨e, hf, raise_fatal _ hf⟩
    · rw [exec, execLdMemVx, h'] at h; cases h
      exact .inr (.stored ⟨x, .inr rfl⟩ he hu (by rw [bumpIdx_advance]))
  case ldVxMem x =>
    simp only [exec, execLdVxMem] at h
    rcases boundsEvent_cases s .load (x.val + 1) with ⟨hb, he⟩ | ⟨_, he⟩
    · have hr : s.readBytes (s.ea 0) (x.val + 1) = _ := readBytes_eq hb
      simp only [he, hr, bumpIdx_advance] at h
      cases h
      exact .inr (.plain rfl (.inl rfl) fun h _ => advanced_le h)
    · simp only [he] at h
      cases h
      exact .inl ⟨_, rfl, raise_fatal _ rfl⟩
  case drw x y n =>
    simp only [exec, execDrw] at h
    generalize s.draw x y n.val = d at h
    obtain ⟨q, o⟩ := d
    cases o with
    | none => cases h; exact .inr (.plain rfl (.inl rfl) fun h _ => advanced_le h)
    | some a =>
      simp only [State.raiseIfOutside, raise_nonfatal s (e := .memoryOutOfBounds a s.pc) rfl] at h
      cases h
      exact .inr (.plain rfl (.inr ⟨_, rfl, rfl⟩) fun h _ => advanced_le h)
  case ldVxK x =>
    cases h
    unfold State.takeKey
    split
    · exact .inr (.plain rfl (.inl rfl) fun h _ => Nat.le_trans h (by decide))
    · exact .inr (.plain rfl (.inl rfl) fun h _ => advanced_le h)
  case jp nnn =>
    cases h; exact .inr (.plain rfl (.inl rfl) fun _ _ => Nat.le_trans (zextAddr_le nnn) (by decide))
  case jpV0 nnn =>
    cases h
    refine .inr (.plain rfl (.inl rfl) fun _ _ => ?_)
    simp [zextAddr, zextByte]
    omega
  case seImm | sneImm | seReg | sneReg | skp | sknp =>
    cases h
    refine .inr (.plain rfl (.inl rfl) fun h _ => ?_)
    rw [skipIf_eq, setPc_pc]
    split
    · exact skipped_le h
    · exact advanced_le h
  all_goals cases h; exact .inr (.plain rfl (.inl rfl) fun h _ => advanced_le h)

end Sys2Proof.Machine
end

