-- ==== Sys2Proof/Laws/PerInstr.lean ====
section
/-! SUPPORT. The statements made for every instruction, one lemma per constructor. -/

namespace Sys2Proof.Laws

/-- The encoder's word of an instruction matches a row of the opcode table, of the instruction's group and
mnemonic (R75, R76). -/
def RowMatch.Statement (i : Instr) : Prop :=
  ∃ r ∈ opcodeRows, r.matchesWord (encode i) = true ∧ r.group = i.group ∧ r.mnemonic = i.mnemonic

/-- A row whose mask is 0xF000 looks at the family alone. -/
theorem rowMatch_family {r : OpcodeRow} {i : Instr} (hr : r ∈ opcodeRows) (hm : r.mask = 0xF000#16)
    (hv : formA (fieldF (encode i)) 0#12 = r.value) (hg : r.group = i.group)
    (hn : r.mnemonic = i.mnemonic) : RowMatch.Statement i :=
  ⟨r, hr, by rw [OpcodeRow.matchesWord, hm, and_F000, hv, beq_self_eq_true], hg, hn⟩

/-- A row whose mask is 0xF00F looks at the family and `N`. -/
theorem rowMatch_nibble {r : OpcodeRow} {i : Instr} (hr : r ∈ opcodeRows) (hm : r.mask = 0xF00F#16)
    (hv : formXYN (fieldF (encode i)) 0 0 (fieldN (encode i)) = r.value) (hg : r.group = i.group)
    (hn : r.mnemonic = i.mnemonic) :
    RowMatch.Statement i :=
  ⟨r, hr, by rw [OpcodeRow.matchesWord, hm, and_F00F, hv, beq_self_eq_true], hg, hn⟩

/-- A row whose mask is 0xF0FF looks at the family and `NN`. -/
theorem rowMatch_byte {r : OpcodeRow} {i : Instr} (hr : r ∈ opcodeRows) (hm : r.mask = 0xF0FF#16)
    (hv : formXNN (fieldF (encode i)) 0 (fieldNN (encode i)) = r.value) (hg : r.group = i.group)
    (hn : r.mnemonic = i.mnemonic) :
    RowMatch.Statement i :=
  ⟨r, hr, by rw [OpcodeRow.matchesWord, hm, and_F0FF, hv, beq_self_eq_true], hg, hn⟩

theorem RowMatch.cls : RowMatch.Statement .cls := ⟨⟨0xFFFF#16, 0x00E0#16, .base, .cls⟩, by decide, by decide, rfl, rfl⟩
theorem RowMatch.ret : RowMatch.Statement .ret := ⟨⟨0xFFFF#16, 0x00EE#16, .base, .ret⟩, by decide, by decide, rfl, rfl⟩
theorem RowMatch.jp (nnn : Addr12) : RowMatch.Statement (.jp nnn) :=
  rowMatch_family (r := ⟨0xF000#16, 0x1000#16, .base, .jp⟩) (by decide) rfl (by simp only [encode, fieldF_formA]; decide) rfl rfl
theorem RowMatch.call (nnn : Addr12) : RowMatch.Statement (.call nnn) :=
  rowMatch_family (r := ⟨0xF000#16, 0x2000#16, .base, .call⟩) (by decide) rfl (by simp only [encode, fieldF_formA]; decide) rfl rfl
theorem RowMatch.seImm (x : RegIx) (nn : Byte) : RowMatch.Statement (.seImm x nn) :=
  rowMatch_family (r := ⟨0xF000#16, 0x3000#16, .base, .seImm⟩) (by decide) rfl (by simp only [encode, fieldF_formXNN]; decide) rfl rfl
theorem RowMatch.sneImm (x : RegIx) (nn : Byte) : RowMatch.Statement (.sneImm x nn) :=
  rowMatch_family (r := ⟨0xF000#16, 0x4000#16, .base, .sneImm⟩) (by decide) rfl (by simp only [encode, fieldF_formXNN]; decide) rfl rfl
theorem RowMatch.seReg (x y : RegIx) (ign : Nibble) : RowMatch.Statement (.seReg x y ign) :=
  rowMatch_family (r := ⟨0xF000#16, 0x5000#16, .base, .seReg⟩) (by decide) rfl (by simp only [encode, fieldF_formXYN]; decide) rfl rfl
theorem RowMatch.ldImm (x : RegIx) (nn : Byte) : RowMatch.Statement (.ldImm x nn) :=
  rowMatch_family (r := ⟨0xF000#16, 0x6000#16, .base, .ldImm⟩) (by decide) rfl (by simp only [encode, fieldF_formXNN]; decide) rfl rfl
theorem RowMatch.addImm (x : RegIx) (nn : Byte) : RowMatch.Statement (.addImm x nn) :=
  rowMatch_family (r := ⟨0xF000#16, 0x7000#16, .base, .addImm⟩) (by decide) rfl (by simp only [encode, fieldF_formXNN]; decide) rfl rfl
theorem RowMatch.ldReg (x y : RegIx) : RowMatch.Statement (.ldReg x y) :=
  rowMatch_nibble (r := ⟨0xF00F#16, 0x8000#16, .base, .ldReg⟩) (by decide) rfl (by simp only [encode, fieldF_formXYN, fieldN_formXYN]; decide) rfl rfl
theorem RowMatch.orReg (x y : RegIx) : RowMatch.Statement (.orReg x y) :=
  rowMatch_nibble (r := ⟨0xF00F#16, 0x8001#16, .base, .orReg⟩) (by decide) rfl (by simp only [encode, fieldF_formXYN, fieldN_formXYN]; decide) rfl rfl
theorem RowMatch.andReg (x y : RegIx) : RowMatch.Statement (.andReg x y) :=
  rowMatch_nibble (r := ⟨0xF00F#16, 0x8002#16, .base, .andReg⟩) (by decide) rfl (by simp only [encode, fieldF_formXYN, fieldN_formXYN]; decide) rfl rfl
theorem RowMatch.xorReg (x y : RegIx) : RowMatch.Statement (.xorReg x y) :=
  rowMatch_nibble (r := ⟨0xF00F#16, 0x8003#16, .base, .xorReg⟩) (by decide) rfl (by simp only [encode, fieldF_formXYN, fieldN_formXYN]; decide) rfl rfl
theorem RowMatch.addReg (x y : RegIx) : RowMatch.Statement (.addReg x y) :=
  rowMatch_nibble (r := ⟨0xF00F#16, 0x8004#16, .base, .addReg⟩) (by decide) rfl (by simp only [encode, fieldF_formXYN, fieldN_formXYN]; decide) rfl rfl
theorem RowMatch.subReg (x y : RegIx) : RowMatch.Statement (.subReg x y) :=
  rowMatch_nibble (r := ⟨0xF00F#16, 0x8005#16, .base, .subReg⟩) (by decide) rfl (by simp only [encode, fieldF_formXYN, fieldN_formXYN]; decide) rfl rfl
theorem RowMatch.shr (x y : RegIx) : RowMatch.Statement (.shr x y) :=
  rowMatch_nibble (r := ⟨0xF00F#16, 0x8006#16, .base, .shr⟩) (by decide) rfl (by simp only [encode, fieldF_formXYN, fieldN_formXYN]; decide) rfl rfl
theorem RowMatch.subnReg (x y : RegIx) : RowMatch.Statement (.subnReg x y) :=
  rowMatch_nibble (r := ⟨0xF00F#16, 0x8007#16, .base, .subnReg⟩) (by decide) rfl (by simp only [encode, fieldF_formXYN, fieldN_formXYN]; decide) rfl rfl
theorem RowMatch.shl (x y : RegIx) : RowMatch.Statement (.shl x y) :=
  rowMatch_nibble (r := ⟨0xF00F#16, 0x800E#16, .base, .shl⟩) (by decide) rfl (by simp only [encode, fieldF_formXYN, fieldN_formXYN]; decide) rfl rfl
theorem RowMatch.sneReg (x y : RegIx) (ign : Nibble) : RowMatch.Statement (.sneReg x y ign) :=
  rowMatch_family (r := ⟨0xF000#16, 0x9000#16, .base, .sneReg⟩) (by decide) rfl (by simp only [encode, fieldF_formXYN]; decide) rfl rfl
theorem RowMatch.ldI (nnn : Addr12) : RowMatch.Statement (.ldI nnn) :=
  rowMatch_family (r := ⟨0xF000#16, 0xA000#16, .base, .ldI⟩) (by decide) rfl (by simp only [encode, fieldF_formA]; decide) rfl rfl
theorem RowMatch.rnd (x : RegIx) (nn : Byte) : RowMatch.Statement (.rnd x nn) :=
  rowMatch_family (r := ⟨0xF000#16, 0xC000#16, .base, .rnd⟩) (by decide) rfl (by simp only [encode, fieldF_formXNN]; decide) rfl rfl
theorem RowMatch.drw (x y : RegIx) (n : Fin 16) : RowMatch.Statement (.drw x y n) :=
  rowMatch_family (r := ⟨0xF000#16, 0xD000#16, .base, .drw⟩) (by decide) rfl (by simp only [encode, fieldF_formXYN]; decide) rfl rfl
theorem RowMatch.addI (x : RegIx) : RowMatch.Statement (.addI x) :=
  rowMatch_byte (r := ⟨0xF0FF#16, 0xF01E#16, .base, .addI⟩) (by decide) rfl (by simp only [encode, fieldF_formXNN, fieldNN_formXNN]; decide) rfl rfl
theorem RowMatch.ldB (x : RegIx) : RowMatch.Statement (.ldB x) :=
  rowMatch_byte (r := ⟨0xF0FF#16, 0xF033#16, .base, .ldB⟩) (by decide) rfl (by simp only [encode, fieldF_formXNN, fieldNN_formXNN]; decide) rfl rfl
theorem RowMatch.jpV0 (nnn : Addr12) : RowMatch.Statement (.jpV0 nnn) :=
  rowMatch_family (r := ⟨0xF000#16, 0xB000#16, .extJumpV0, .jpV0⟩) (by decide) rfl (by simp only [encode, fieldF_formA]; decide) rfl rfl
theorem RowMatch.skp (x : RegIx) : RowMatch.Statement (.skp x) :=
  rowMatch_byte (r := ⟨0xF0FF#16, 0xE09E#16, .extKey, .skp⟩) (by decide) rfl (by simp only [encode, fieldF_formXNN, fieldNN_formXNN]; decide) rfl rfl
theorem RowMatch.sknp (x : RegIx) : RowMatch.Statement (.sknp x) :=
  rowMatch_byte (r := ⟨0xF0FF#16, 0xE0A1#16, .extKey, .sknp⟩) (by decide) rfl (by simp only [encode, fieldF_formXNN, fieldNN_formXNN]; decide) rfl rfl
theorem RowMatch.ldVxDt (x : RegIx) : RowMatch.Statement (.ldVxDt x) :=
  rowMatch_byte (r := ⟨0xF0FF#16, 0xF007#16, .extTimer, .ldVxDt⟩) (by decide) rfl (by simp only [encode, fieldF_formXNN, fieldNN_formXNN]; decide) rfl rfl
theorem RowMatch.ldVxK (x : RegIx) : RowMatch.Statement (.ldVxK x) :=
  rowMatch_byte (r := ⟨0xF0FF#16, 0xF00A#16, .extKey, .ldVxK⟩) (by decide) rfl (by simp only [encode, fieldF_formXNN, fieldNN_formXNN]; decide) rfl rfl
theorem RowMatch.ldDtVx (x : RegIx) : RowMatch.Statement (.ldDtVx x) :=
  rowMatch_byte (r := ⟨0xF0FF#16, 0xF015#16, .extTimer, .ldDtVx⟩) (by decide) rfl (by simp only [encode, fieldF_formXNN, fieldNN_formXNN]; decide) rfl rfl
theorem RowMatch.ldStVx (x : RegIx) : RowMatch.Statement (.ldStVx x) :=
  rowMatch_byte (r := ⟨0xF0FF#16, 0xF018#16, .extTimer, .ldStVx⟩) (by decide) rfl (by simp only [encode, fieldF_formXNN, fieldNN_formXNN]; decide) rfl rfl
theorem RowMatch.ldF (x : RegIx) : RowMatch.Statement (.ldF x) :=
  rowMatch_byte (r := ⟨0xF0FF#16, 0xF029#16, .extFont, .ldF⟩) (by decide) rfl (by simp only [encode, fieldF_formXNN, fieldNN_formXNN]; decide) rfl rfl
theorem RowMatch.ldMemVx (x : RegIx) : RowMatch.Statement (.ldMemVx x) :=
  rowMatch_byte (r := ⟨0xF0FF#16, 0xF055#16, .extRegmem, .ldMemVx⟩) (by decide) rfl (by simp only [encode, fieldF_formXNN, fieldNN_formXNN]; decide) rfl rfl
theorem RowMatch.ldVxMem (x : RegIx) : RowMatch.Statement (.ldVxMem x) :=
  rowMatch_byte (r := ⟨0xF0FF#16, 0xF065#16, .extRegmem, .ldVxMem⟩) (by decide) rfl (by simp only [encode, fieldF_formXNN, fieldNN_formXNN]; decide) rfl rfl

end Sys2Proof.Laws
end

