-- ==== Sys2Proof/Tests/Slice0.lean ====
section
/-! SUPPORT. Tests. Expected values are the worked examples S1 to S12, the vectors T1 to T144 and the encoding
examples of spec 95_test_vectors.md, or the words written out from the patterns of 30_encoding.md R75 and R76. -/

namespace Sys2Proof.Tests

open Sys2Proof.Machine

/-! ### WellFormed: the one check, the gate of R200 -/

theorem test_wf_refuses_timer_group_off : (Instr.ldVxDt 3).wellFormed Params.specValues = false := by decide
theorem test_wf_refuses_font_group_off : (Instr.ldF 3).wellFormed Params.specValues = false := by decide
theorem test_wf_refuses_regmem_group_off : (Instr.ldMemVx 3).wellFormed Params.specValues = false := by decide
theorem test_wf_refuses_jumpv0_group_off : (Instr.jpV0 0x300).wellFormed Params.specValues = false := by decide
theorem test_wf_refuses_key_group_off : (Instr.skp 3).wellFormed Params.specValues = false := by decide
theorem test_wf_accepts_base : (Instr.drw 0 1 5).wellFormed Params.specValues = true := by decide

/-! ### Decoding: every row's word written out in bits -/

theorem test_decode_cls : decodeTable 0b0000000011100000#16 = some .cls := by decide
theorem test_decode_ret : decodeTable 0b0000000011101110#16 = some .ret := by decide
theorem test_decode_jp : decodeTable 0b0001001010100100#16 = some (.jp 0x2A4) := by decide
theorem test_decode_call : decodeTable 0b0010001000001010#16 = some (.call 0x20A) := by decide
theorem test_decode_se_imm : decodeTable 0b0011001100101010#16 = some (.seImm 3 0x2A) := by decide
theorem test_decode_sne_imm : decodeTable 0b0100101100000000#16 = some (.sneImm 0xB 0x00) := by decide
theorem test_decode_se_reg : decodeTable 0b0101000100100111#16 = some (.seReg 1 2 7) := by decide
theorem test_decode_ld_imm : decodeTable 0b0110101000101111#16 = some (.ldImm 0xA 0x2F) := by decide
theorem test_decode_add_imm : decodeTable 0b0111001000100000#16 = some (.addImm 2 0x20) := by decide
theorem test_decode_ld_reg : decodeTable 0b1000001101010000#16 = some (.ldReg 3 5) := by decide
theorem test_decode_or : decodeTable 0b1000000100100001#16 = some (.orReg 1 2) := by decide
theorem test_decode_and : decodeTable 0b1000000100100010#16 = some (.andReg 1 2) := by decide
theorem test_decode_xor : decodeTable 0b1000000100100011#16 = some (.xorReg 1 2) := by decide
theorem test_decode_add_reg : decodeTable 0b1000101010110100#16 = some (.addReg 0xA 0xB) := by decide
theorem test_decode_sub : decodeTable 0b1000000100100101#16 = some (.subReg 1 2) := by decide
theorem test_decode_shr : decodeTable 0b1000010001010110#16 = some (.shr 4 5) := by decide
theorem test_decode_subn : decodeTable 0b1000000100100111#16 = some (.subnReg 1 2) := by decide
theorem test_decode_shl : decodeTable 0b1000010001011110#16 = some (.shl 4 5) := by decide
theorem test_decode_sne_reg : decodeTable 0b1001101010101111#16 = some (.sneReg 0xA 0xA 0xF) := by decide
theorem test_decode_ld_i : decodeTable 0b1010001011110000#16 = some (.ldI 0x2F0) := by decide
theorem test_decode_jp_v0 : decodeTable 0b1011001100000000#16 = some (.jpV0 0x300) := by decide
theorem test_decode_rnd : decodeTable 0b1100001100001111#16 = some (.rnd 3 0x0F) := by decide
theorem test_decode_drw : decodeTable 0b1101000000010101#16 = some (.drw 0 1 5) := by decide
theorem test_decode_skp : decodeTable 0b1110000110011110#16 = some (.skp 1) := by decide
theorem test_decode_sknp : decodeTable 0b1110000110100001#16 = some (.sknp 1) := by decide
theorem test_decode_ld_vx_dt : decodeTable 0b1111001100000111#16 = some (.ldVxDt 3) := by decide
theorem test_decode_ld_vx_k : decodeTable 0b1111001100001010#16 = some (.ldVxK 3) := by decide
theorem test_decode_ld_dt_vx : decodeTable 0b1111000000010101#16 = some (.ldDtVx 0) := by decide
theorem test_decode_ld_st_vx : decodeTable 0b1111010100011000#16 = some (.ldStVx 5) := by decide
theorem test_decode_add_i : decodeTable 0b1111000000011110#16 = some (.addI 0) := by decide
theorem test_decode_ld_f : decodeTable 0b1111001000101001#16 = some (.ldF 2) := by decide
theorem test_decode_ld_b : decodeTable 0b1111011100110011#16 = some (.ldB 7) := by decide
theorem test_decode_ld_mem_vx : decodeTable 0b1111000101010101#16 = some (.ldMemVx 1) := by decide
theorem test_decode_ld_vx_mem : decodeTable 0b1111000101100101#16 = some (.ldVxMem 1) := by decide

/-- T107, T108, T109, T114, T115, T144, and a selector of family 8 without a row. -/
theorem test_decode_unknown_words :
    [0x0000#16, 0x00E1#16, 0x01E0#16, 0x0FEE#16, 0x8128#16, 0x812F#16, 0xE19F#16, 0xF01F#16, 0xFFFF#16].map
      decodeTable = List.replicate 9 none := by decide

/-- T110 to T113: with every group off the extension words are `Unknown`. -/
theorem test_decode_group_off : decode Params.specValues 0xB300#16 = .unknown 0xB300#16 := by decide
/-- The check that the fetch is big-endian (95_test_vectors.md section 8): bytes 8A B4 and B4 8A. -/
theorem test_decode_big_endian : decodeBytes Params.specValues 0x8A 0xB4 = .instr (.addReg 0xA 0xB) := by decide
theorem test_decode_bytes_swapped : decodeBytes Params.specValues 0xB4 0x8A = .unknown 0xB48A#16 := by decide
theorem test_decode_table_word : decodeTableWord 16 0xF165 = some (.ldVxMem 1) := by decide
/-- No two rows of the opcode table share a word (R74). -/
theorem test_rows_disjoint :
    opcodeRows.Pairwise (fun r q => (r.value ^^^ q.value) &&& (r.mask &&& q.mask) ≠ 0#16) := by decide

/-! ### One tick on a small state -/

/-- The start state of the vectors: reset, with one word at `PC` and its group on. -/
def bench (w : Word) : State := State.reset.placeWord w

/-- Registers set on a bench. -/
def withRegs (s : State) (rs : List (RegIx × Byte)) : State := rs.foldl (fun s r => s.setReg r.1 r.2) s

/-- Bytes placed in memory from an address on. -/
def withBytes (s : State) (a : Nat) (bs : List Byte) : State := s.loadBytes a bs

/-- What one tick leads to satisfies a check. -/
def after (s : State) (check : State → Bool) : Bool :=
  match step s with
  | .next t => check t
  | .fault _ => false
  | .refused _ => false

/-- The events among the outputs, the latest first. -/
def events (s : State) : List Event := s.emitted.filterMap fun o => match o with
  | .event e => some e
  | .soundTrigger => none
  | .frame _ => none

/-- The lit pixels of a row, as column numbers. -/
def litRow (s : State) (y : Fin 32) : List Nat :=
  (List.range 64).filter fun x => Frame.pixel s.fb (wrapX x) y

/-- T1. -/
theorem test_jp : after (bench 0x1ABC) (fun t => t.pc == 0x0ABC) = true := by decide
/-- T4. -/
theorem test_call : after { bench 0x220A with pc := 0x0200 }
    (fun t => t.stk.get 0 == 0x0202 && t.sp == 1 && t.pc == 0x020A) = true := by decide
/-- T6: stack full. -/
theorem test_call_full : after { bench 0x2300 with sp := 16, dt := 5 }
    (fun t => t.pc == 0x0200 && t.sp == 16 && t.dt == 4 && events t == [.stackOverflow 0x0200 0x2300]) = true := by decide
/-- T8. -/
theorem test_ret : after { bench 0x00EE with sp := 16, stk := State.reset.stk.set 15 0x0ABC }
    (fun t => t.pc == 0x0ABC && t.sp == 15) = true := by decide
/-- T9: stack empty, and the sound trigger of the same tick. -/
theorem test_ret_empty : after { bench 0x00EE with dt := 5, st := 1 }
    (fun t => t.pc == 0x0200 && t.dt == 4 && t.st == 0 &&
      t.emitted == [.soundTrigger, .event (.stackUnderflow 0x0200 0x00EE)]) = true := by decide
/-- T10, T11. -/
theorem test_se_imm : (after (withRegs (bench 0x332A) [(3, 0x2A)]) (fun t => t.pc == 0x0204) &&
    after (withRegs (bench 0x332B) [(3, 0x2A)]) (fun t => t.pc == 0x0202)) = true := by decide
/-- T12, T13. -/
theorem test_sne_imm : (after (withRegs (bench 0x432A) [(3, 0x2A)]) (fun t => t.pc == 0x0202) &&
    after (withRegs (bench 0x432B) [(3, 0x2A)]) (fun t => t.pc == 0x0204)) = true := by decide
/-- T16: the low nibble is ignored. -/
theorem test_se_reg : after (withRegs (bench 0x5127) [(1, 7), (2, 7)]) (fun t => t.pc == 0x0204) = true := by decide
/-- T18, T20. -/
theorem test_sne_reg : (after (withRegs (bench 0x9120) [(1, 7), (2, 8)]) (fun t => t.pc == 0x0204) &&
    after (withRegs (bench 0x9AAF) [(0xA, 9)]) (fun t => t.pc == 0x0202)) = true := by decide
/-- T25. -/
theorem test_ld_imm : after (bench 0x6F55) (fun t => t.reg 0xF == 0x55 && t.pc == 0x0202) = true := by decide
/-- T26. -/
theorem test_add_imm : after (withRegs (bench 0x7220) [(2, 0xF0), (0xF, 0x33)])
    (fun t => t.reg 2 == 0x10 && t.reg 0xF == 0x33) = true := by decide
/-- T29. -/
theorem test_ld_reg : after (withRegs (bench 0x8350) [(5, 0x77)]) (fun t => t.reg 3 == 0x77) = true := by decide
/-- T30. -/
theorem test_or : after (withRegs (bench 0x8121) [(1, 0xF0), (2, 0x0F), (0xF, 0x55)])
    (fun t => t.reg 1 == 0xFF && t.reg 0xF == 0x55) = true := by decide
/-- T31. -/
theorem test_and : after (withRegs (bench 0x8122) [(1, 0xF3), (2, 0x3C), (0xF, 0x55)])
    (fun t => t.reg 1 == 0x30 && t.reg 0xF == 0x55) = true := by decide
/-- T32. -/
theorem test_xor : after (withRegs (bench 0x8123) [(1, 0xF3), (2, 0x3C), (0xF, 0x55)])
    (fun t => t.reg 1 == 0xCF && t.reg 0xF == 0x55) = true := by decide
/-- T36: sum exactly 255. -/
theorem test_add_reg : after (withRegs (bench 0x8014) [(0, 0xFE), (1, 1), (0xF, 1)])
    (fun t => t.reg 0 == 0xFF && t.reg 0xF == 0) = true := by decide
/-- T38, T39: VF as X and as Y. -/
theorem test_add_reg_vf : (after (withRegs (bench 0x8F14) [(0xF, 0xF0), (1, 0x20)]) (fun t => t.reg 0xF == 0x10) &&
    after (withRegs (bench 0x81F4) [(1, 0xFF), (0xF, 2)]) (fun t => t.reg 1 == 1 && t.reg 0xF == 1)) = true := by decide
/-- T41, T42. -/
theorem test_sub : (after (withRegs (bench 0x8125) [(1, 5), (2, 5)]) (fun t => t.reg 1 == 0 && t.reg 0xF == 1) &&
    after (withRegs (bench 0x8125) [(1, 3), (2, 5), (0xF, 1)]) (fun t => t.reg 1 == 0xFE && t.reg 0xF == 0)) = true := by decide
/-- T46, T47. -/
theorem test_sub_vf : (after (withRegs (bench 0x8F15) [(0xF, 9), (1, 4)]) (fun t => t.reg 0xF == 5) &&
    after (withRegs (bench 0x81F5) [(1, 4), (0xF, 9)]) (fun t => t.reg 1 == 0xFB && t.reg 0xF == 0)) = true := by decide
/-- T48, T49. -/
theorem test_subn : (after (withRegs (bench 0x8127) [(1, 3), (2, 5)]) (fun t => t.reg 1 == 2 && t.reg 0xF == 1) &&
    after (withRegs (bench 0x8127) [(1, 5), (2, 3), (0xF, 1)]) (fun t => t.reg 1 == 0xFE && t.reg 0xF == 0)) = true := by decide
/-- T55, T57. -/
theorem test_shr : (after (withRegs (bench 0x8456) [(4, 5), (5, 0xF0)]) (fun t => t.reg 4 == 2 && t.reg 0xF == 1) &&
    after (withRegs (bench 0x8F06) [(0xF, 7)]) (fun t => t.reg 0xF == 3)) = true := by decide
/-- T61: `SHIFT_SOURCE = VY`. -/
theorem test_shl_vy : after (withRegs { bench 0x845E with params := { Params.specValues with shiftSource := .vy } }
    [(4, 5), (5, 0xF0)]) (fun t => t.reg 4 == 0xE0 && t.reg 0xF == 1) = true := by decide
/-- T60. -/
theorem test_shl : after (withRegs (bench 0x840E) [(4, 0x40), (0xF, 1)])
    (fun t => t.reg 4 == 0x80 && t.reg 0xF == 0) = true := by decide
/-- T63. -/
theorem test_rnd : after { bench 0xC30F with inputs := [⟨false, 0xB7, 0⟩] } (fun t => t.reg 3 == 7) = true := by decide
/-- T68. -/
theorem test_ld_i : after (bench 0xA2F0) (fun t => t.idx == 0x02F0) = true := by decide
/-- T70, T71. -/
theorem test_add_i : (after (withRegs { bench 0xF01E with idx := 0x0FFF } [(0, 1)]) (fun t => t.idx == 0x1000) &&
    after (withRegs { bench 0xF01E with idx := 0xFFFF } [(0, 2)]) (fun t => t.idx == 1 && t.reg 0xF == 0)) = true := by decide
/-- T77. -/
theorem test_ld_b : after (withRegs { bench 0xF033 with idx := 0x0FFD } [(0, 123)])
    (fun t => t.byteAt 0xFFD == 1 && t.byteAt 0xFFE == 2 && t.byteAt 0xFFF == 3 && t.pc == 0x0202) = true := by decide
/-- T78. -/
theorem test_ld_b_outside : after (withRegs { bench 0xF033 with idx := 0x0FFE, dt := 4 } [(0, 123)])
    (fun t => t.run == .faulted && t.byteAt 0xFFE == 0 && t.dt == 4 && t.pc == 0x0200 &&
      events t == [.memoryAccessFault .store 0x1000 0x0200]) = true := by decide
/-- T82. -/
theorem test_ld_b_font : after (withRegs { bench 0xF033 with idx := 0x004F } [(0, 123)])
    (fun t => t.run == .faulted && t.byteAt 0x4F == 0x80 && t.byteAt 0x50 == 0 &&
      events t == [.memoryAccessFault .fontStore 0x4F 0x0200]) = true := by decide
/-- T85: `FONT_STORE = ignore`. -/
theorem test_ld_b_font_ignore : after (withRegs { bench 0xF033 with
      idx := 0x004F, params := { Params.specValues with fontStore := .ignore } } [(0, 123)])
    (fun t => t.byteAt 0x4F == 0x80 && t.byteAt 0x50 == 2 && t.byteAt 0x51 == 3 && t.pc == 0x0202) = true := by decide
/-- T89: a frame is emitted even when the screen was clear. -/
theorem test_cls : after (bench 0x00E0)
    (fun t => t.emitted == [.frame blankFrame] && !t.dirty && t.pc == 0x0202) = true := by decide
/-- T90. -/
theorem test_drw_wraps : after (withBytes (withRegs { bench 0xD011 with idx := 0x300 } [(0, 63), (1, 31)]) 0x300 [0xC0])
    (fun t => litRow t 31 == [0, 63] && litRow t 0 == [] && t.reg 0xF == 0) = true := by decide
/-- T93: the collision test reads the pixel before the XOR. -/
theorem test_drw_collision : after (withBytes { bench 0xD011 with
      idx := 0x300, fb := Frame.invert (Frame.invert blankFrame 3 0) 4 0 } 0x300 [0xF0])
    (fun t => litRow t 0 == [0, 1, 2, 4] && t.reg 0xF == 1) = true := by decide
/-- T102: truncated after one row. -/
theorem test_drw_truncated : after (withBytes { bench 0xD012 with idx := 0xFFF, fb := Frame.invert blankFrame 0 0 } 0xFFF [0x80])
    (fun t => litRow t 0 == [] && t.reg 0xF == 1 && t.run == .running &&
      t.emitted == [.frame blankFrame, .event (.memoryOutOfBounds 0x1000 0x0200)]) = true := by decide
/-- T121. -/
theorem test_jp_v0 : after (withRegs (bench 0xB300) [(0, 4)]) (fun t => t.pc == 0x0304) = true := by decide
/-- T123. -/
theorem test_ld_vx_dt : after { bench 0xF307 with dt := 0x2A } (fun t => t.reg 3 == 0x2A && t.dt == 0x29) = true := by decide
/-- T124. -/
theorem test_ld_dt_vx : after (withRegs (bench 0xF015) [(0, 3)]) (fun t => t.dt == 2) = true := by decide
/-- T126, T128. -/
theorem test_ld_st_vx : (after (withRegs (bench 0xF518) [(5, 1)]) (fun t => t.st == 0 && t.emitted == [.soundTrigger]) &&
    after (withRegs { bench 0xF518 with st := 5 } [(5, 0)]) (fun t => t.st == 0 && t.emitted == [])) = true := by decide
/-- T129. -/
theorem test_ld_f : after (withRegs (bench 0xF229) [(2, 0x0A)]) (fun t => t.idx == 0x0032) = true := by decide
/-- T130. -/
theorem test_ld_mem_vx : after (withRegs { bench 0xF155 with idx := 0x300 } [(0, 1), (1, 2), (2, 3)])
    (fun t => t.byteAt 0x300 == 1 && t.byteAt 0x301 == 2 && t.byteAt 0x302 == 0 && t.idx == 0x300) = true := by decide
/-- T135. -/
theorem test_ld_vx_mem_outside : after { bench 0xF165 with idx := 0xFFF }
    (fun t => t.run == .faulted && events t == [.memoryAccessFault .load 0x1000 0x0200]) = true := by decide
/-- T136: reading the font is allowed. -/
theorem test_ld_vx_mem : after (bench 0xF265)
    (fun t => t.reg 0 == 0xF0 && t.reg 1 == 0x90 && t.reg 2 == 0x90 && t.reg 3 == 0) = true := by decide
/-- T137, T139. -/
theorem test_skp : (after (withRegs { bench 0xE19E with inputs := [⟨false, 0, 0x0020⟩] } [(1, 5)]) (fun t => t.pc == 0x0204) &&
    after (withRegs { bench 0xE19E with inputs := [⟨false, 0, 0x0020⟩] } [(1, 0x15)]) (fun t => t.pc == 0x0204)) = true := by decide
/-- T140, T141. -/
theorem test_sknp : (after (withRegs { bench 0xE1A1 with inputs := [⟨false, 0, 0⟩] } [(1, 5)]) (fun t => t.pc == 0x0204) &&
    after (withRegs { bench 0xE1A1 with inputs := [⟨false, 0, 0x0020⟩] } [(1, 5)]) (fun t => t.pc == 0x0202)) = true := by decide
/-- T142, T143. -/
theorem test_ld_vx_k : (after { bench 0xF30A with inputs := [⟨false, 0, 0x0104⟩] } (fun t => t.reg 3 == 2 && t.pc == 0x0202) &&
    after { bench 0xF30A with inputs := [⟨false, 0, 0⟩], dt := 2 } (fun t => t.pc == 0x0200 && t.dt == 1)) = true := by decide
/-- S10: an unknown word halts the run, timers and trigger skipped. -/
theorem test_unknown : after { State.reset with dt := 3, st := 1 } (fun t => t.run == .faulted && t.pc == 0x0200 &&
    t.dt == 3 && t.st == 1 && t.emitted == [.event (.unknownOpcode 0x0000 0x0200)]) = true := by decide
/-- T116: the stop signal. -/
theorem test_stop : after { bench 0x6011 with inputs := [⟨true, 0, 0⟩], dt := 3 }
    (fun t => t.run == .stopped && t.reg 0 == 0 && t.pc == 0x0200 && t.dt == 3) = true := by decide
/-- T120: no wrap of the fetch address. -/
theorem test_fetch_fault : after { State.reset with pc := 0xFFFF } (fun t => t.run == .faulted && t.pc == 0xFFFF &&
    events t == [.memoryAccessFault .fetch 0xFFFF 0xFFFF]) = true := by decide
/-- S1: ROM load, and a ROM that does not fit. -/
theorem test_rom_load : ((construct Params.specValues [0x12, 0x34, 0x56]).byteAt 0x201 == 0x34) = true := by decide

/-! ### Witnesses: states and operands that meet the hypotheses of the obligations, together, at the ends of their ranges -/

/-- A tick that leads to a checked state answers a next state. -/
theorem after_step {s : State} {check : State → Bool} (h : after s check = true) :
    ∃ t, step s = .next t ∧ check t = true := by
  unfold after at h
  cases he : step s with
  | next t => rw [he] at h; exact ⟨t, rfl, h⟩
  | fault r => rw [he] at h; cases h
  | refused r => rw [he] at h; cases h

/-- A block with every group on, ready for a word. -/
def openBench (w : Word) : State := { bench w with params := Params.everyGroup }

/-- A bench under another `FONT_STORE`. -/
def storeBench (w : Word) (f : FontStore) (i : Word) : State :=
  { bench w with params := { Params.everyGroup with fontStore := f }, idx := i }

/-- DecodeInvertsEncode, EncodeInvertsDecode: a base and an extension instruction. -/
theorem test_witness_decode : (Instr.seReg 1 2 7).wellFormed Params.specValues = true ∧
    (Instr.ldVxMem 0xF).wellFormed Params.everyGroup = true ∧
    decode Params.specValues 0x5127#16 = .instr (.seReg 1 2 7) ∧
    decode Params.everyGroup 0xFF65#16 = .instr (.ldVxMem 0xF) := by decide
/-- UnknownWordsByFamily: a word of each clause, with the groups off. -/
theorem test_witness_unknown_families :
    [0x00E1#16, 0x8008#16, 0x800F#16, 0xB000#16, 0xE09E#16, 0xE000#16, 0xF007#16, 0xF00A#16, 0xF029#16, 0xF055#16].all
      (fun w => decode Params.specValues w == .unknown w) = true := by decide
/-- UnknownWordsByFamily: the words just outside each clause. -/
theorem test_witness_known_families :
    [0x00E0#16, 0x8007#16, 0x800E#16, 0xB000#16, 0xE09E#16, 0xE0A1#16, 0xF007#16, 0xF00A#16, 0xF029#16, 0xF055#16].all
      (fun w => decode Params.everyGroup w != .unknown w) = true := by decide
/-- StepRunsTheDecodedInstruction, and each statement that assumes a tick ready for an instruction. -/
theorem test_witness_ready : (bench 0x1ABC).ReadyFor (.jp 0xABC) ∧ ∃ t, exec (.jp 0xABC) (bench 0x1ABC) = .next t :=
  ⟨⟨rfl, rfl, by decide, by decide⟩, _, rfl⟩
/-- The same at the last address a word can be fetched from, 0x0FFE. -/
theorem test_witness_ready_last : ({ State.reset with pc := 0x0FFE }.placeWord 0xF065).ReadyFor (.ldVxMem 0) :=
  ⟨rfl, rfl, by decide, by decide⟩
/-- HaltedTickChangesNothing: both halted states. -/
theorem test_witness_halted : (State.reset.setRun .stopped).run = .stopped ∧
    (State.reset.setRun .faulted).run = .faulted := ⟨rfl, rfl⟩
/-- StopSignalStopsTheMachine. -/
theorem test_witness_stop : (State.reset.present [⟨true, 0, 0⟩]).run = .running ∧
    (State.reset.present [⟨true, 0, 0⟩]).tickInput.stop = true := ⟨rfl, rfl⟩
/-- FetchOutsideMemoryIsFatal: `PC` at 0x0FFF, where the second byte is outside, and at 0xFFFF. -/
theorem test_witness_fetch : (State.reset.setPc 0x0FFF).run = .running ∧
    (State.reset.setPc 0x0FFF).tickInput.stop = false ∧ (State.reset.setPc 0x0FFF).pc.toNat > 0x0FFE ∧
    (State.reset.setPc 0xFFFF).pc.toNat > 0x0FFE := ⟨rfl, rfl, by decide, by decide⟩
/-- UnknownWordIsFatal: at reset, with an empty ROM, the first word is 0x0000. -/
theorem test_witness_unknown : State.reset.run = .running ∧ State.reset.tickInput.stop = false ∧
    State.reset.pc.toNat ≤ 0x0FFE ∧
    wordOfBytes (State.reset.byteAt State.reset.pc.toNat) (State.reset.byteAt (State.reset.pc.toNat + 1)) = 0x0000 ∧
    decode State.reset.params 0x0000 = .unknown 0x0000 := ⟨rfl, rfl, by decide, by decide, by decide⟩
/-- FatalTickChangesOnlyRun, first part. -/
theorem test_witness_fatal_tick : State.reset.run = .running ∧ ∃ t, step State.reset = .next t ∧ (t.run == .faulted) = true :=
  ⟨rfl, after_step (check := fun t => t.run == .faulted) (by decide)⟩
/-- FatalTickChangesOnlyRun, second part: a `RET` on an empty stack. -/
theorem test_witness_nonfatal_tick : (bench 0x00EE).ReadyFor .ret ∧
    ∃ u, exec .ret (bench 0x00EE) = .next u ∧ u.emitted = .event (.stackUnderflow 0x0200 0x00EE) :: (bench 0x00EE).emitted :=
  ⟨⟨rfl, rfl, by decide, by decide⟩, _, rfl, rfl⟩
/-- TickEmitsEventThenTriggerThenFrame: one tick that emits all three. -/
theorem test_witness_outputs : after { bench 0x00EE with st := 1, dirty := true } (fun t => t.emitted ==
    [.frame blankFrame, .soundTrigger, .event (.stackUnderflow 0x0200 0x00EE)]) = true := by decide
/-- TimersCountDownEachTick: an instruction that leaves the timers, and the two that write them. -/
theorem test_witness_timers : (∃ u, exec (.jp 0xABC) (bench 0x1ABC) = .next u ∧ u.run = .running) ∧
    (bench 0xF015).ReadyFor (.ldDtVx 0) ∧ (∃ u, exec (.ldDtVx 0) (bench 0xF015) = .next u ∧ u.run = .running) ∧
    (bench 0xF518).ReadyFor (.ldStVx 5) ∧ (∃ u, exec (.ldStVx 5) (bench 0xF518) = .next u ∧ u.run = .running) :=
  ⟨⟨_, rfl, rfl⟩, ⟨rfl, rfl, by decide, by decide⟩, ⟨_, rfl, rfl⟩, ⟨rfl, rfl, by decide, by decide⟩, ⟨_, rfl, rfl⟩⟩
/-- SoundTriggerFiresFromOneToZero: a tick with the trigger, and ticks without it, `ST` staying 0 and going from 2 to
1. -/
theorem test_witness_sound : (after { bench 0x1ABC with st := 1 } (fun t => t.emitted == [.soundTrigger]) &&
    after { bench 0x1ABC with st := 0 } (fun t => t.emitted == []) &&
    after { bench 0x1ABC with st := 2 } (fun t => t.emitted == [] && t.st == 1)) = true := by decide
/-- FrameEmittedByClsOrPlottingDrw: a clean state with each kind of frame, and a draw that plots nothing. -/
theorem test_witness_frame : (bench 0x00E0).Clean ∧ (bench 0x00E0).ReadyFor .cls ∧
    (bench 0xD015).Clean ∧ (bench 0xD015).ReadyFor (.drw 0 1 5) ∧ (bench 0xD015).spriteBit 5 0 0 ∧
    after { bench 0xD015 with idx := 0x300 } (fun t => t.emitted.isEmpty) = true :=
  ⟨rfl, ⟨rfl, rfl, by decide, by decide⟩, rfl, ⟨rfl, rfl, by decide, by decide⟩,
    ⟨by decide, by decide, by decide, by decide⟩, by decide⟩
/-- StackMisuseNeverRecovers, StackMisuseOnlyReports: a full and an empty stack, with inputs listed and without. -/
theorem test_witness_misuse : ({ bench 0x2300 with sp := 16 }).ReadyFor (.call 0x300) ∧
    ({ bench 0x2300 with sp := 16 }).Clean ∧ ({ bench 0x2300 with sp := 16 }).sp = 16 ∧
    decode Params.specValues 0x2300 = .instr (.call 0x300) ∧
    ((bench 0x00EE).present [⟨false, 1, 2⟩]).ReadyFor .ret ∧ ((bench 0x00EE).present [⟨false, 1, 2⟩]).Clean ∧
    ((bench 0x00EE).present [⟨false, 1, 2⟩]).sp = 0 ∧ decode Params.specValues 0x00EE = .instr .ret ∧
    (∀ inp ∈ ((bench 0x00EE).present [⟨false, 1, 2⟩]).inputs, inp.stop = false) :=
  ⟨⟨rfl, rfl, by decide, by decide⟩, rfl, rfl, by decide, ⟨rfl, rfl, by decide, by decide⟩, rfl, rfl, by decide,
    by decide⟩
/-- CallPushesTheReturnAddress, RetPopsIntoPc: the ends of the ranges of `SP`. -/
theorem test_witness_depth : State.reset.sp.val < 16 ∧ ({ State.reset with sp := 15 }).sp.val < 16 ∧
    0 < ({ State.reset with sp := 1 }).sp.val ∧ 0 < ({ State.reset with sp := 16 }).sp.val := by decide
/-- CallThenRetIsAnIdentityOnPc: a call, and sixteen of them from an empty stack. -/
theorem test_witness_calls : (∃ u, exec (.call 0x300) State.reset = .next u) ∧ State.reset.sp.val = 0 ∧
    (List.replicate 16 (0x300 : Addr12)).length ≤ 16 := ⟨⟨_, rfl⟩, rfl, by decide⟩
/-- OnlyCallAndRetTouchTheStack: a tick that changes `SP` up and a slot with it, and one that changes `SP` down. -/
theorem test_witness_stack_changes : (∃ t, exec (.call 0x300) State.reset = .next t ∧ t.sp ≠ State.reset.sp ∧
      t.stk ≠ State.reset.stk) ∧
    (∃ t, exec .ret { State.reset with sp := 1 } = .next t ∧ t.sp ≠ ({ State.reset with sp := 1 }).sp) :=
  ⟨⟨_, rfl, by decide, by decide⟩, _, rfl, by decide⟩
/-- ShiftsByOnePlace: both settings of `SHIFT_SOURCE`. AddRegistersSetsCarry and SubtractionsSetNoBorrow: X may be 0xE. -/
theorem test_witness_shift : ((bench 0x8456).params.shiftSource = .vx ∧ (0 : Byte) = (bench 0x8456).reg 4) ∧
    ({ bench 0x8456 with params := { Params.everyGroup with shiftSource := .vy } }.params.shiftSource = .vy ∧
      (0 : Byte) = (bench 0x8456).reg 5) ∧ (0xE : RegIx) ≠ vf := by decide
/-- VfKeptByInstructionsWithoutFlag: with X below 0xF and with no X at all. -/
theorem test_witness_vf : (∃ t, exec (.addImm 0xE 0xFF) State.reset = .next t) ∧
    (Instr.addImm 0xE 0xFF).writesFlag = false ∧ (Instr.addImm 0xE 0xFF).xField ≠ some vf ∧
    (∃ t, exec (.ldI 0xFFF) State.reset = .next t) ∧ (Instr.ldI 0xFFF).xField ≠ some vf :=
  ⟨⟨_, rfl⟩, rfl, by decide, ⟨_, rfl⟩, by decide⟩
/-- InputsReadOnlyByTheirInstructions: other inputs for an instruction that reads none, one for each that reads one. -/
theorem test_witness_inputs : (∀ x nn, Instr.cls ≠ .rnd x nn) ∧ Instr.cls.group ≠ .extKey ∧
    ((7 : Byte) = 7 ∧ (Instr.rnd 3 0x0F).group ≠ .extKey) ∧
    ((∀ x nn, Instr.skp 1 ≠ .rnd x nn) ∧ (9 : Word) = 9) :=
  ⟨(fun _ _ h => by cases h), by decide, ⟨rfl, by decide⟩, (fun _ _ h => by cases h), rfl⟩
/-- BcdStoresThreeDigits: the last address that fits, the first outside the font, and the font under `ignore` and
`allow`. -/
theorem test_witness_bcd : (storeBench 0xF733 .fault 0xFFD).MemCanonical ∧
    (storeBench 0xF733 .fault 0xFFD).idx.toNat + 2 ≤ 0xFFF ∧ 0x50 ≤ (storeBench 0xF733 .fault 0xFFD).idx.toNat ∧
    (storeBench 0xF733 .fault 0x50).MemCanonical ∧ 0x50 ≤ (storeBench 0xF733 .fault 0x50).idx.toNat ∧
    (storeBench 0xF733 .ignore 0x4E).MemCanonical ∧ (storeBench 0xF733 .ignore 0x4E).params.fontStore ≠ .fault ∧
    (storeBench 0xF733 .ignore 0x4E).idx.toNat + 1 < 0x50 ∧ 0x50 ≤ (storeBench 0xF733 .ignore 0x4E).idx.toNat + 2 ∧
    (storeBench 0xF733 .allow 0).MemCanonical ∧ (storeBench 0xF733 .allow 0).params.fontStore = .allow := by decide
/-- BcdAddressChecks: the first `I` that does not fit, one where `I` itself is outside, and the last address of the font
under `fault`. -/
theorem test_witness_bcd_checks : (storeBench 0xF733 .fault 0xFFE).idx.toNat + 2 > 0xFFF ∧
    (storeBench 0xF733 .fault 0xFFFF).idx.toNat + 2 > 0xFFF ∧
    (storeBench 0xF733 .fault 0x4F).idx.toNat + 2 ≤ 0xFFF ∧ (storeBench 0xF733 .fault 0x4F).idx.toNat ≤ 0x04F ∧
    (storeBench 0xF733 .fault 0x4F).params.fontStore = .fault := by decide
/-- OnlyStoresChangeMemory: both stores change a byte. -/
theorem test_witness_stores : (∃ t, exec (.ldB 7) (withRegs (storeBench 0xF733 .fault 0x300) [(7, 0xFF)]) = .next t ∧
      t.byteAt 0x302 ≠ (withRegs (storeBench 0xF733 .fault 0x300) [(7, 0xFF)]).byteAt 0x302) ∧
    (∃ t, exec (.ldMemVx 7) (withRegs (storeBench 0xF755 .fault 0x300) [(7, 0xFF)]) = .next t ∧
      t.byteAt 0x307 ≠ (withRegs (storeBench 0xF755 .fault 0x300) [(7, 0xFF)]).byteAt 0x307) :=
  ⟨⟨_, rfl, by decide⟩, _, rfl, by decide⟩
/-- StoreIsSeenByTheNextFetch: the digits as the next word, one byte of overlap at its high and at its low end, the font
under `ignore`, the last `PC`, and a block of registers. -/
theorem test_witness_store_fetch : 0x50 ≤ (storeBench 0xF733 .fault 0x200).idx.toNat ∧
    (storeBench 0xF733 .fault 0x203).idx.toNat + 2 ≤ 0xFFF ∧
    (storeBench 0xF733 .fault 0x202).MemCanonical ∧ (storeBench 0xF733 .fault 0x202).pc.toNat ≤ 0x0FFC ∧
    (storeBench 0xF733 .fault 0x202).ReadyFor (.ldB 7) ∧
    (storeBench 0xF733 .ignore 0x4E).ReadyFor (.ldB 7) ∧
    ({ State.reset with pc := 0x0FFC }.placeWord 0xF733).ReadyFor (.ldB 7) ∧
    (storeBench 0xFF55 .fault 0x200).MemCanonical ∧ (storeBench 0xFF55 .fault 0x200).ReadyFor (.ldMemVx 0xF) ∧
    (storeBench 0xFF55 .fault 0x200).idx.toNat + (0xF : RegIx).val ≤ 0xFFF :=
  ⟨by decide, by decide, by decide, by decide, ⟨rfl, rfl, by decide, by decide⟩, ⟨rfl, rfl, by decide, by decide⟩,
    ⟨rfl, rfl, by decide, by decide⟩, by decide, ⟨rfl, rfl, by decide, by decide⟩, by decide⟩
/-- R56 with the digits 2, 5, 5 of R173: `LD B,V7` of 255 with `I = PC + 2` makes the next word 0x0205, with
`I = PC + 1` it makes it 0x0505. -/
theorem test_store_seen_by_fetch : (after (withRegs (storeBench 0xF733 .fault 0x202) [(7, 255)]) (fun t => t.fetchWord == some 0x0205) &&
    after (withRegs (storeBench 0xF733 .fault 0x201) [(7, 255)]) (fun t => t.fetchWord == some 0x0505)) = true := by decide
/-- DrawReportsTheFirstRowOutsideMemory: a draw whose last row just fits, one whose second row is outside, and one
that starts outside. -/
theorem test_witness_draw_rows : (∀ r, r < (15 : Fin 16).val → (0xFF1 : Word).toNat + r ≤ 0xFFF) ∧
    (1 < (2 : Fin 16).val ∧ (0xFFF : Word).toNat + 1 > 0xFFF ∧ ∀ q, q < 1 → (0xFFF : Word).toNat + q ≤ 0xFFF) ∧
    (0 < (1 : Fin 16).val ∧ (0x1000 : Word).toNat + 0 > 0xFFF ∧ ∀ q, q < 0 → (0x1000 : Word).toNat + q ≤ 0xFFF) := by
  refine ⟨?_, ⟨by decide, by decide, ?_⟩, by decide, by decide, fun q h => absurd h (Nat.not_lt_zero q)⟩
  · intro r hr
    have : (0xFF1 : Word).toNat = 0xFF1 := rfl
    have : (15 : Fin 16).val = 15 := rfl
    omega
  · intro q hq
    have : (0xFFF : Word).toNat = 0xFFF := rfl
    omega
/-- DrawingTwiceRestoresTheFramebuffer: the coordinates in V0 and V1, the screen clear. -/
theorem test_witness_draw_twice : ∃ u, exec (.drw 0 1 5) (bench 0xD015) = .next u ∧
    u.reg 0 = (bench 0xD015).reg 0 ∧ u.reg 1 = (bench 0xD015).reg 1 ∧ (bench 0xD015).fb = blankFrame :=
  ⟨_, rfl, by decide, by decide, rfl⟩
/-- SecondDrawOfANonemptySpriteAlwaysCollides fails here, log entry 24. Two equal draws whose results are the spec's own
vectors: the first is T91 (both pixels lit before, none after, VF = 1) and leaves the start state of T90, so the second is
T90 (both lit, VF = 0), against the clause's 1. -/
theorem test_second_draw_need_not_collide :
    ∃ u t, exec (.drw 0 1 1) (withBytes (withRegs { bench 0xD011 with
        idx := 0x300, fb := Frame.invert (Frame.invert blankFrame 63 31) 0 31 } [(0, 63), (1, 31)]) 0x300 [0xC0]) = .next u ∧
      u.reg vf = 1 ∧ litRow u 31 = [] ∧ exec (.drw 0 1 1) u = .next t ∧ t.reg vf = 0 ∧ litRow t 31 = [0, 63] :=
  ⟨_, _, rfl, by decide, by decide, rfl, by decide, by decide⟩
/-- JpV0AddsTheOffset, TimerMoves, FontAddressOfADigit, KeySkips, KeyWaitTakesTheLowestKey: a block with the groups. -/
theorem test_witness_groups : (bench 0xBFFF).params.extJumpV0 = true ∧ (bench 0xF307).params.extTimer = true ∧
    (bench 0xF229).params.extFont = true ∧ (bench 0xF155).params.extRegmem = true ∧
    (bench 0xF30A).params.extKey = true := by decide
/-- FontAddressOfADigit: the last digit. -/
theorem test_witness_font : ((withRegs (bench 0xF229) [(2, 0x0F)]).reg 2).toNat ≤ 0x0F := by decide
/-- KeyWaitTakesTheLowestKey: no key, the first key, and the last key alone. -/
theorem test_witness_keys : ((bench 0xF30A).present [⟨false, 0, 0⟩]).tickInput.key = 0 ∧
    ((bench 0xF30A).present [⟨false, 0, 0xFFFF⟩]).tickInput.key.getLsbD 0 = true ∧
    ((bench 0xF30A).present [⟨false, 0, 0x8000⟩]).tickInput.key.getLsbD 15 = true ∧
    (∀ j : Fin 15, ((bench 0xF30A).present [⟨false, 0, 0x8000⟩]).tickInput.key.getLsbD j.val = false) := by decide
/-- BlockStoreWritesTheRegisters, BlockLoadReadsTheRegisters: sixteen registers at the last address that fits, and one
register in the font under `ignore` and `allow`, with `REGMEM_I_INCREMENT` off and on. -/
theorem test_witness_block : (storeBench 0xFF55 .fault 0xFF0).params.extRegmem = true ∧
    (storeBench 0xFF55 .fault 0xFF0).MemCanonical ∧ (storeBench 0xFF55 .fault 0xFF0).idx.toNat + (0xF : RegIx).val ≤ 0xFFF ∧
    0x50 ≤ (storeBench 0xFF55 .fault 0xFF0).idx.toNat ∧
    (storeBench 0xF055 .ignore 0x4F).MemCanonical ∧ (storeBench 0xF055 .ignore 0x4F).params.fontStore ≠ .fault ∧
    (storeBench 0xF055 .allow 0).params.fontStore = .allow ∧
    ({ (storeBench 0xF055 .allow 0) with params := { Params.everyGroup with regmemIIncrement := true } }).params.regmemIIncrement =
      true := by decide
/-- BlockTransferAddressChecks: the first `I` that does not fit, and the font under `fault`. -/
theorem test_witness_block_checks : (storeBench 0xFF55 .fault 0xFF1).idx.toNat + (0xF : RegIx).val > 0xFFF ∧
    (storeBench 0xF055 .fault 0x1000).idx.toNat + (0 : RegIx).val > 0xFFF ∧
    (storeBench 0xFF55 .fault 0x4F).idx.toNat + (0xF : RegIx).val ≤ 0xFFF ∧
    (storeBench 0xFF55 .fault 0x4F).idx.toNat ≤ 0x04F ∧
    (storeBench 0xFF55 .fault 0x4F).params.fontStore = .fault := by decide
/-- ResetValues, RomLoadPlacesTheBytes, RomThatDoesNotFitIsNotLoaded: the largest ROM, and one byte more. -/
theorem test_witness_rom : (List.replicate 3584 (0x12 : Byte)).length ≤ 3584 ∧
    3584 < (List.replicate 3585 (0x12 : Byte)).length :=
  ⟨Nat.le_of_eq List.length_replicate, by rw [List.length_replicate]; decide⟩
/-- StepKeepsTheInvariant: reset with a word at `PC` meets the invariant and steps to a state that runs. -/
theorem test_witness_invariant : (bench 0x1ABC).Inv ∧ ∃ t, step (bench 0x1ABC) = .next t ∧ (t.run == .running) = true := by
  refine ⟨⟨by decide, rfl, fun _ a ha => ?_, by decide, by decide⟩,
    after_step (check := fun t => t.run == .running) (by decide)⟩
  have hm : (bench 0x1ABC).mem = [(0x200, 0x1A), (0x201, 0xBC)] := by decide
  have h1 : ¬ 0x200 = a := by omega
  have h2 : ¬ 0x201 = a := by omega
  simp only [State.byteAt, hm, Memory.lookup, if_neg h1, if_neg h2, Option.getD_none]
  exact dif_pos ha
/-- ReachableStatesMeetTheInvariant, OutputsNeverFeedBack: a state that one tick from construction reaches. -/
theorem test_witness_reachable : ∃ t, Reachable Params.specValues [0x1A, 0xBC] t ∧ (t.pc == 0x0ABC) = true := by
  obtain ⟨t, h, hc⟩ := after_step (s := construct Params.specValues [0x1A, 0xBC]) (check := fun t => t.pc == 0x0ABC)
    (by decide)
  exact ⟨t, .tick _ t (.construct) h, hc⟩

end Sys2Proof.Tests
end

/-! ### The record of outputs is written and never read (R9, R230)

A state with an older record put below its own goes through every operation of the tick unchanged: each operation
commutes with `State.withPast`. Two states that differ in what was emitted before are the same state with an empty
record, put on two pasts. -/

namespace Sys2Proof.Machine

/-- `s` with the outputs `log` emitted before those that `s` records. -/
def State.withPast (log : List Output) (s : State) : State := { s with emitted := s.emitted ++ log }

/-- An answer with the outputs `log` emitted before those that its state records. -/
def Result.withPast (log : List Output) : Result → Result
  | .next t => .next (t.withPast log)
  | .fault r => .fault r
  | .refused r => .refused r

section
variable (log : List Output) (s : State)

/-! ### What reads the state does not see the past -/

@[simp] theorem withPast_pc : (s.withPast log).pc = s.pc := rfl
@[simp] theorem withPast_st : (s.withPast log).st = s.st := rfl
@[simp] theorem withPast_dirty : (s.withPast log).dirty = s.dirty := rfl
@[simp] theorem withPast_run : (s.withPast log).run = s.run := rfl
@[simp] theorem withPast_params : (s.withPast log).params = s.params := rfl
@[simp] theorem withPast_tickInput : (s.withPast log).tickInput = s.tickInput := rfl
@[simp] theorem withPast_fetchWord : (s.withPast log).fetchWord = s.fetchWord := rfl
@[simp] theorem withPast_memRead? (a : Nat) : (s.withPast log).memRead? a = s.memRead? a := rfl
@[simp] theorem withPast_boundsEvent (kind : AccessKind) (n : Nat) :
    (s.withPast log).boundsEvent kind n = s.boundsEvent kind n := rfl
@[simp] theorem withPast_storeEvent (n : Nat) : (s.withPast log).storeEvent n = s.storeEvent n := rfl
@[simp] theorem withPast_ea (k : Nat) : (s.withPast log).ea k = s.ea k := rfl

@[simp] theorem withPast_readBytes (a n : Nat) : (s.withPast log).readBytes a n = s.readBytes a n := by
  induction n generalizing a with
  | zero => rfl
  | succ n ih => simp only [State.readBytes, withPast_memRead?, ih]

theorem drawRows_withPast (x y n r : Nat) (q : Plot) : drawRows (s.withPast log) x y n r q = drawRows s x y n r q := by
  induction n generalizing r q with
  | zero => rfl
  | succ n ih =>
    simp only [drawRows, ih]
    rfl

@[simp] theorem withPast_draw (x y : RegIx) (n : Nat) : (s.withPast log).draw x y n = s.draw x y n :=
  drawRows_withPast log s _ _ n 0 _

/-! ### What writes the state leaves the past below its own outputs -/

theorem raise_withPast (e : Event) : (s.withPast log).raise e = (s.raise e).withPast log := by
  unfold State.raise
  split <;> rfl

theorem raiseIfOutside_withPast (a : Option Nat) :
    (s.withPast log).raiseIfOutside a = (s.raiseIfOutside a).withPast log := by
  cases a with
  | none => rfl
  | some a => exact raise_withPast log s _

theorem push?_withPast (a : Word) : (s.withPast log).push? a = (s.push? a).map (State.withPast log) := by
  by_cases h : s.sp.val < 16
  · rw [show s.push? a = some _ from dif_pos h]
    exact dif_pos h
  · rw [show s.push? a = none from dif_neg h]
    exact dif_neg h

theorem pop?_withPast : (s.withPast log).pop? = s.pop?.map fun p => (p.1, p.2.withPast log) := by
  by_cases h : 0 < s.sp.val
  · rw [show s.pop? = some _ from dif_pos h]
    exact dif_pos h
  · rw [show s.pop? = none from dif_neg h]
    exact dif_neg h

theorem memWrite?_withPast (a : Nat) (b : Byte) :
    (s.withPast log).memWrite? a b = (s.memWrite? a b).map (State.withPast log) := by
  unfold State.memWrite?
  rw [withPast_params]
  split
  · split
    · cases s.params.fontStore <;> rfl
    · rfl
  · rfl

theorem writeBytes_withPast (a : Nat) (bs : List Byte) :
    (s.withPast log).writeBytes a bs = (s.writeBytes a bs).map (State.withPast log) := by
  induction bs generalizing s a with
  | nil => rfl
  | cons b bs ih =>
    simp only [State.writeBytes, memWrite?_withPast]
    cases s.memWrite? a b with
    | none => rfl
    | some t => exact ih t (a + 1)

theorem bumpIdx_withPast (x : RegIx) : (s.withPast log).bumpIdx x = (s.bumpIdx x).withPast log := by
  unfold State.bumpIdx
  rw [withPast_params]
  split <;> rfl

theorem takeKey_withPast (x : RegIx) : (s.withPast log).takeKey x = (s.takeKey x).withPast log := by
  unfold State.takeKey
  rw [withPast_tickInput]
  split <;> rfl

/-! ### The instructions -/

/-- A checked store commutes with a past when what comes after it does. -/
theorem storeAtIdx_withPast (bs : List Byte) {k : State → State}
    (hk : ∀ t : State, k (t.withPast log) = (k t).withPast log) :
    storeAtIdx (s.withPast log) bs k = Result.withPast log (storeAtIdx s bs k) := by
  simp only [storeAtIdx, withPast_storeEvent, withPast_ea, writeBytes_withPast, raise_withPast]
  cases s.storeEvent bs.length with
  | some e => rfl
  | none =>
    cases s.writeBytes (s.ea 0) bs with
    | error a => rfl
    | ok t => exact congrArg Host.Outcome.next (hk t)

theorem execCall_withPast (nnn : Addr12) :
    execCall nnn (s.withPast log) = Result.withPast log (execCall nnn s) := by
  simp only [execCall, withPast_pc, push?_withPast, raise_withPast]
  cases s.push? (s.pc + 2) <;> rfl

theorem execRet_withPast : execRet (s.withPast log) = Result.withPast log (execRet s) := by
  simp only [execRet, withPast_pc, pop?_withPast, raise_withPast]
  cases s.pop? <;> rfl

theorem execDrw_withPast (x y : RegIx) (n : Fin 16) :
    execDrw x y n (s.withPast log) = Result.withPast log (execDrw x y n s) := by
  simp only [execDrw, withPast_draw, raiseIfOutside_withPast]
  rfl

theorem execLdVxMem_withPast (x : RegIx) :
    execLdVxMem x (s.withPast log) = Result.withPast log (execLdVxMem x s) := by
  simp only [execLdVxMem, withPast_boundsEvent, withPast_ea, withPast_readBytes, raise_withPast]
  cases s.boundsEvent .load (x.val + 1) with
  | some e => rfl
  | none =>
    cases s.readBytes (s.ea 0) (x.val + 1) with
    | error a => rfl
    | ok bytes =>
      exact congrArg (fun t : State => Host.Outcome.next t.advance)
        (bumpIdx_withPast log (s.setV (writeRegs s.v 0 bytes)) x)

/-- No instruction reads what was emitted before. -/
theorem exec_withPast (i : Instr) : exec i (s.withPast log) = Result.withPast log (exec i s) := by
  cases i
  case call nnn => exact execCall_withPast log s nnn
  case ret => exact execRet_withPast log s
  case drw x y n => exact execDrw_withPast log s x y n
  case ldB x => exact storeAtIdx_withPast log s _ fun _ => rfl
  case ldMemVx x => exact storeAtIdx_withPast log s _ fun t => congrArg State.advance (bumpIdx_withPast log t x)
  case ldVxMem x => exact execLdVxMem_withPast log s x
  case ldVxK x => exact congrArg Host.Outcome.next (takeKey_withPast log s x)
  all_goals rfl

/-! ### The tick -/

theorem timerStage_withPast : (s.withPast log).timerStage = s.timerStage.withPast log := by
  unfold State.timerStage
  rw [withPast_st]
  split <;> rfl

theorem renderStage_withPast : (s.withPast log).renderStage = s.renderStage.withPast log := by
  unfold State.renderStage
  rw [withPast_dirty]
  split <;> rfl

theorem finishTick_withPast : (s.withPast log).finishTick = s.finishTick.withPast log := by
  simp only [State.finishTick, withPast_run, timerStage_withPast, renderStage_withPast]
  cases s.run <;> rfl

theorem runWord_withPast (w : Word) : (s.withPast log).runWord w = Result.withPast log (s.runWord w) := by
  simp only [State.runWord, withPast_params, withPast_pc, exec_withPast, raise_withPast, finishTick_withPast]
  cases decode s.params w with
  | unknown u => rfl
  | instr i =>
    dsimp only
    cases exec i s with
    | next t => exact congrArg Host.Outcome.next (finishTick_withPast log t)
    | fault r => rfl
    | refused r => rfl

/-- No step reads what was emitted before. -/
theorem step_withPast : step (s.withPast log) = Result.withPast log (step s) := by
  simp only [step, State.tick, withPast_run, withPast_tickInput, withPast_fetchWord, withPast_pc, raise_withPast,
    finishTick_withPast, runWord_withPast]
  cases s.run with
  | stopped => rfl
  | faulted => rfl
  | running =>
    cases s.tickInput.stop with
    | true => rfl
    | false => cases s.fetchWord <;> rfl

end

/-- An answer with a past that is a next state comes from a next state. -/
theorem withPast_eq_next {log : List Output} {r : Result} {t : State} (h : Result.withPast log r = .next t) :
    ∃ u, r = .next u ∧ t = u.withPast log := by
  cases r with
  | next u => cases h; exact ⟨u, rfl, rfl⟩
  | fault r => cases h
  | refused r => cases h

/-- `s` with an empty record of outputs. -/
def State.unrecorded (s : State) : State := { s with emitted := [] }

theorem unrecorded_withPast (s : State) (log : List Output) :
    s.unrecorded.withPast log = { s with emitted := log } := rfl

/-- Settles O60: both states are the state with an empty record put on a past, and `step` commutes with that; the
outputs it adds are those it emits from the empty record. -/
theorem outputsNeverFeedBack : Obligations.OutputsNeverFeedBack := by
  intro s t log h
  have hs : Result.withPast s.emitted (step s.unrecorded) = .next t := by
    rw [← step_withPast, unrecorded_withPast]
    exact h
  obtain ⟨u, hu, rfl⟩ := withPast_eq_next hs
  refine ⟨u.emitted, rfl, ?_⟩
  rw [← unrecorded_withPast, step_withPast, hu]
  rfl

end Sys2Proof.Machine

/-! ### The invariant of the tick boundary (R14, R21, R47, R124, R201)

A step either touches only the run state and the outputs, or completes an instruction and finishes the tick. The
first keeps every clause of the invariant as it stands; the second keeps them one by one. -/

namespace Sys2Proof.Machine

/-! ### What a step can do, in two cases -/

/-- A step changes at most the run state and the outputs (a halted machine, a stop, a fatal event), or it completes
an instruction and does the rest of the tick. -/
theorem step_halts_or_completes {s t : State} (h : step s = .next t) :
    (∃ r log, t = { s with run := r, emitted := log }) ∨
    (∃ i u, s.ReadyFor i ∧ Completes i s u ∧ t = u.finishTick) := by
  rcases step_cases h with ⟨-, rfl⟩ | ⟨-, -, rfl⟩ | ⟨-, -, -, rfl⟩ | ⟨-, -, -, w, -, rfl⟩ | ⟨i, u, hi, hu, rfl⟩
  · exact .inl ⟨t.run, t.emitted, rfl⟩
  · exact .inl ⟨.stopped, s.emitted, rfl⟩
  · exact .inl ⟨_, _, raise_frame s _⟩
  · exact .inl ⟨_, _, raise_frame s _⟩
  · rcases exec_cases hu with ⟨e, -, rfl⟩ | hc
    · exact .inl ⟨.faulted, .event e :: s.emitted, finishTick_halted (s := s.haltedBy e) nofun⟩
    · exact .inr ⟨i, u, hi, hc, rfl⟩

theorem Completes.run_eq {i : Instr} {s t : State} (h : Completes i s t) : t.run = s.run := by rw [h.kept]

theorem Completes.params_eq {i : Instr} {s t : State} (h : Completes i s t) : t.params = s.params := by rw [h.kept]

/-- The parameters of a block are fixed for its life (R200). -/
theorem step_params {s t : State} (h : step s = .next t) : t.params = s.params := by
  rcases step_halts_or_completes h with ⟨r, log, rfl⟩ | ⟨i, u, hi, hc, rfl⟩
  · rfl
  · rw [finishTick_running (hc.run_eq.trans hi.running)]
    exact hc.params_eq

/-! ### An instruction that completes keeps memory, font and bounds -/

theorem byteAt_congr {s t : State} (hm : t.mem = s.mem) (hp : t.params = s.params) (a : Nat) :
    t.byteAt a = s.byteAt a := by
  simp only [State.byteAt, hm, hp]

/-- A store that passed its checks changes memory alone, keeps the canonical form, and leaves every byte that no
program store may overwrite (R47). -/
theorem checkedStore_spec {s u : State} {bs : List Byte} (he : s.storeEvent bs.length = none)
    (hu : s.writeBytes s.idx.toNat bs = .ok u) :
    u = s.setMem u.mem ∧ (s.MemCanonical → u.MemCanonical) ∧ ∀ a, ¬ s.writable a → u.byteAt a = s.byteAt a := by
  obtain ⟨u', hu', hset, hc, hkeep, -⟩ := writeBytes_spec (storeEvent_none_le he)
  cases hu.symm.trans hu'
  exact ⟨hset, hc, fun a ha => hkeep a (.inr (.inr ha))⟩

theorem Completes.memCanonical {i : Instr} {s t : State} (h : Completes i s t) (hs : s.MemCanonical) :
    t.MemCanonical := by
  unfold State.MemCanonical
  rw [h.params_eq]
  rcases h.stores with hm | ⟨-, bs, u, he, hu, hm⟩
  · rw [hm]
    exact hs
  · obtain ⟨hset, hc, -⟩ := checkedStore_spec he hu
    have hw := hc hs
    rw [State.MemCanonical, show u.params = s.params by rw [hset]; rfl] at hw
    rwa [hm]

/-- A byte that no program store may overwrite reads as before (R47). -/
theorem Completes.byteAt_of_not_writable {i : Instr} {s t : State} (h : Completes i s t) {a : Nat}
    (ha : ¬ s.writable a) : t.byteAt a = s.byteAt a := by
  rcases h.stores with hm | ⟨-, bs, u, he, hu, hm⟩
  · exact byteAt_congr hm h.params_eq a
  · obtain ⟨hset, -, hkeep⟩ := checkedStore_spec he hu
    have hp : u.params = s.params := by rw [hset]; rfl
    rw [byteAt_congr hm (h.params_eq.trans hp.symm)]
    exact hkeep a ha

theorem Completes.fontIntact {i : Instr} {s t : State} (h : Completes i s t) (hf : s.params.fontStore ≠ .allow)
    (hs : s.FontIntact) : t.FontIntact := by
  intro a ha
  have hnw : ¬ s.writable a := by
    rintro (hge | hallow)
    · exact absurd ha (Nat.not_lt.mpr hge)
    · exact hf hallow
  simp only [h.byteAt_of_not_writable hnw, h.params_eq]
  exact hs a ha

/-- The return address of a `CALL` that could be fetched (R122). -/
theorem returnAddress_le {a : Word} (h : a.toNat ≤ 0x0FFE) : (a + 2).toNat ≤ 0x1000 := by
  rw [BitVec.toNat_add]; simp; omega

/-- The bounds on `PC` and the slots (R124, R201), for an instruction that could be fetched. -/
theorem Completes.pcBounded {i : Instr} {s t : State} (h : Completes i s t) (hpc : s.pc.toNat ≤ 0x0FFE)
    (hs : s.PcBounded) : t.PcBounded := by
  rcases h.stack with ⟨hstk, hle⟩ | ⟨nnn, -, hto, -, hstk⟩
  · exact ⟨hle hpc hs.2, fun k => by rw [hstk]; exact hs.2 k⟩
  · refine ⟨by rw [hto]; exact Nat.le_trans (zextAddr_le nnn) (by decide), fun k => ?_⟩
    rw [hstk]
    split
    · exact returnAddress_le hpc
    · exact hs.2 k

/-! ### Every step keeps the invariant -/

/-- No clause of the invariant reads the run state or the outputs. -/
theorem State.Inv.with_run_emitted {s : State} (h : s.Inv) (r : RunState) (log : List Output) :
    State.Inv { s with run := r, emitted := log } :=
  ⟨h.memCanonical, h.clean, h.fontIntact, h.pcBounded⟩

/-- The rest of the tick clears `DIRTY` (R252) and changes nothing else the invariant reads. -/
theorem finishTick_inv {s : State} (hr : s.run = .running) (hm : s.MemCanonical)
    (hf : s.params.fontStore ≠ .allow → s.FontIntact) (hp : s.PcBounded) : s.finishTick.Inv := by
  rw [finishTick_running hr]
  exact ⟨hm, rfl, hf, hp⟩

/-- Settles O57: a completed instruction keeps memory, font and bounds, and the tick it ends clears `DIRTY`. -/
theorem stepKeepsTheInvariant : Obligations.StepKeepsTheInvariant := by
  intro s t hs h
  rcases step_halts_or_completes h with ⟨r, log, rfl⟩ | ⟨i, u, hi, hc, rfl⟩
  · exact hs.with_run_emitted r log
  · refine finishTick_inv (hc.run_eq.trans hi.running) (hc.memCanonical hs.memCanonical) (fun hf => ?_)
      (hc.pcBounded hi.fetchable hs.pcBounded)
    rw [hc.params_eq] at hf
    exact hc.fontIntact hf (hs.fontIntact hf)

/-! ### Reset, construction and reachable states -/

/-- The reset of a block with any parameters meets the invariant (R271). -/
theorem reset_inv (p : Params) : State.Inv { State.reset with params := p } where
  memCanonical := rfl
  clean := rfl
  fontIntact := fun _ _ ha => dif_pos ha
  pcBounded := show State.reset.PcBounded from ⟨by decide, by decide⟩

/-- Settles O58: it is `reset_inv` at the parameter values of the spec. -/
theorem resetMeetsTheInvariant : Obligations.ResetMeetsTheInvariant := reset_inv Params.specValues

theorem construct_params (p : Params) (rom : List Byte) : (construct p rom).params = p := by
  unfold construct
  dsimp only
  split
  · rw [loadBytes_eq]; rfl
  · rw [raise_frame]

/-- A ROM that fits goes above the font and below 4096 (R272); one that does not leaves reset's memory (R273). -/
theorem construct_inv (p : Params) (rom : List Byte) : (construct p rom).Inv := by
  have hreset := reset_inv p
  unfold construct
  dsimp only
  split
  next hfits =>
    have hmem := loadBytes_memCanonical (bs := rom) (a := loadAddress) hreset.memCanonical
      (by simp only [romCapacity] at hfits; simp only [loadAddress, memBytes]; omega)
    have hfont := fun a (ha : a < 80) => loadBytes_byteAt_below (s := { State.reset with params := p }) rom
      (show a < loadAddress from Nat.lt_trans ha (by decide))
    rw [loadBytes_eq] at hmem hfont ⊢
    exact ⟨hmem, rfl, fun hf a ha => (hfont a ha).trans (hreset.fontIntact hf a ha), hreset.pcBounded⟩
  next =>
    rw [raise_frame]
    exact hreset.with_run_emitted _ _

/-- Settles O59, by induction on how the state is reached. -/
theorem reachableStatesMeetTheInvariant : Obligations.ReachableStatesMeetTheInvariant := by
  intro p rom s h
  induction h with
  | construct => exact ⟨construct_inv p rom, construct_params p rom⟩
  | present s inputs _ ih =>
    obtain ⟨hinv, hp⟩ := ih
    exact ⟨⟨hinv.memCanonical, hinv.clean, hinv.fontIntact, hinv.pcBounded⟩, hp⟩
  | tick s t _ hstep ih =>
    obtain ⟨hinv, hp⟩ := ih
    exact ⟨stepKeepsTheInvariant s t hinv hstep, (step_params hstep).trans hp⟩

end Sys2Proof.Machine

/-! ### What no other instruction touches: the stack pointer and VF (R12, R16, R17) -/

namespace Sys2Proof.Machine

/-! ### The operations that several instructions end in -/

theorem bumpIdx_v (u : State) (x : RegIx) : (u.bumpIdx x).v = u.v := by
  unfold State.bumpIdx; split <;> rfl

theorem bumpIdx_sp (u : State) (x : RegIx) : (u.bumpIdx x).sp = u.sp := by
  unfold State.bumpIdx; split <;> rfl

theorem raise_v (s : State) (e : Event) : (s.raise e).v = s.v := by rw [raise_frame]

theorem raise_sp (s : State) (e : Event) : (s.raise e).sp = s.sp := by rw [raise_frame]

/-- A checked store writes no register and leaves `SP`, when what comes after it does. -/
theorem storeAtIdx_keeps_v_sp {s t : State} {bs : List Byte} {k : State → State}
    (h : storeAtIdx s bs k = .next t) (hv : ∀ u, (k u).v = u.v) (hsp : ∀ u, (k u).sp = u.sp) :
    t.v = s.v ∧ t.sp = s.sp := by
  rcases storeAtIdx_cases s bs k with ⟨e, -, -, h'⟩ | ⟨he, u, hu, h'⟩
  · cases h.symm.trans h'
    exact ⟨raise_v s e, raise_sp s e⟩
  · cases h.symm.trans h'
    obtain ⟨hset, -⟩ := checkedStore_spec he hu
    rw [hv, hsp, hset]
    exact ⟨rfl, rfl⟩

theorem execLdB_keeps_v_sp {x : RegIx} {s t : State} (h : execLdB x s = .next t) : t.v = s.v ∧ t.sp = s.sp :=
  storeAtIdx_keeps_v_sp h (fun _ => rfl) fun _ => rfl

theorem execLdMemVx_keeps_v_sp {x : RegIx} {s t : State} (h : execLdMemVx x s = .next t) :
    t.v = s.v ∧ t.sp = s.sp :=
  storeAtIdx_keeps_v_sp h (fun u => bumpIdx_v u x) fun u => bumpIdx_sp u x

/-- `LD VX,[I]` writes `V[0]` to `V[X]` or nothing (R207, R208), and leaves `SP`. -/
theorem execLdVxMem_keeps {x : RegIx} {s t : State} (h : execLdVxMem x s = .next t) :
    (∀ r, x < r → t.reg r = s.reg r) ∧ t.sp = s.sp := by
  unfold execLdVxMem at h
  rcases boundsEvent_cases s .load (x.val + 1) with ⟨hb, he⟩ | ⟨-, he⟩
  · have hread : s.readBytes (s.ea 0) (x.val + 1) = _ := readBytes_eq hb
    simp only [he, hread] at h
    cases h
    refine ⟨fun r hr => ?_, by rw [advance_eq, setPc_sp, bumpIdx_sp, setV_sp]⟩
    have hout : ¬ (0 ≤ r.val ∧ r.val < 0 + (x.val + 1)) := by
      have := Fin.lt_def.mp hr
      omega
    simp only [State.reg, advance_eq, setPc_v, bumpIdx_v, setV_v, Vector.get_eq_getElem, writeRegs_getElem,
      List.length_map, List.length_range, dif_neg hout]
  · simp only [he] at h
    cases h
    exact ⟨fun r _ => congrArg (·.get r) (raise_v s _), raise_sp s _⟩

/-- `LD VX,K` writes at most `V[X]` (R216), and leaves `SP`. -/
theorem takeKey_keeps (s : State) (x : RegIx) :
    (∀ r, r ≠ x → (s.takeKey x).reg r = s.reg r) ∧ (s.takeKey x).sp = s.sp := by
  unfold State.takeKey
  split
  · exact ⟨fun _ _ => rfl, rfl⟩
  · exact ⟨fun r hr => setReg_reg_ne s _ hr, rfl⟩

theorem raiseIfOutside_sp (s : State) (a : Option Nat) : (s.raiseIfOutside a).sp = s.sp := by
  cases a with
  | none => rfl
  | some a => exact raise_sp s _

/-! ### The stack pointer -/

/-- R17: an instruction that is neither `CALL` nor `RET` leaves `SP`. -/
theorem exec_keeps_sp {i : Instr} {s t : State} (h : exec i s = .next t) (hcall : ∀ nnn, i ≠ .call nnn)
    (hret : i ≠ .ret) : t.sp = s.sp := by
  cases i
  case call nnn => exact absurd rfl (hcall nnn)
  case ret => exact absurd rfl hret
  case ldB x => exact (execLdB_keeps_v_sp h).2
  case ldMemVx x => exact (execLdMemVx_keeps_v_sp h).2
  case ldVxMem x => exact (execLdVxMem_keeps h).2
  case ldVxK x => cases h; exact (takeKey_keeps s x).2
  case drw x y n => cases h; exact raiseIfOutside_sp s _
  all_goals cases h; rfl

/-- `CALL` pushes or, with a full stack, only reports (R122, R123); it writes no register. -/
theorem execCall_v_sp {nnn : Addr12} {s t : State} (h : execCall nnn s = .next t) :
    t.v = s.v ∧ (t.sp.val = s.sp.val + 1 ∨ t.sp = s.sp) := by
  unfold execCall at h
  rcases push?_cases s (s.pc + 2) with ⟨-, u, hu, hframe, hsp, -⟩ | ⟨-, hu⟩
  · rw [hu] at h; cases h
    exact ⟨by rw [setPc_v, hframe], .inl hsp⟩
  · rw [hu] at h; cases h
    exact ⟨raise_v s _, .inr (raise_sp s _)⟩

/-- `RET` pops or, with an empty stack, only reports (R124, R125); it writes no register. -/
theorem execRet_v_sp {s t : State} (h : execRet s = .next t) :
    t.v = s.v ∧ (t.sp.val + 1 = s.sp.val ∨ t.sp = s.sp) := by
  unfold execRet at h
  rcases pop?_cases s with ⟨hpos, a, u, hu, hframe, hsp, -⟩ | ⟨-, hu⟩
  · rw [hu] at h; cases h
    exact ⟨by rw [setPc_v, hframe], .inl (by rw [setPc_sp, hsp]; omega)⟩
  · rw [hu] at h; cases h
    exact ⟨raise_v s _, .inr (raise_sp s _)⟩

/-- R16: only `CALL` with a free slot writes one. -/
theorem exec_stk_cases {i : Instr} {s t : State} (h : exec i s = .next t) :
    t.stk = s.stk ∨ ∃ nnn, i = .call nnn ∧ s.sp.val < 16 := by
  rcases exec_cases h with ⟨e, -, rfl⟩ | hc
  · exact .inl rfl
  · rcases hc.stack with ⟨hstk, -⟩ | ⟨nnn, hi, -, hsp, -⟩
    · exact .inl hstk
    · exact .inr ⟨nnn, hi, hsp⟩

/-- Settles O26: by `exec_keeps_sp` only `CALL` and `RET` are left for `SP`, and each of the two moves it by one or
only reports. -/
theorem onlyCallAndRetTouchTheStack : Obligations.OnlyCallAndRetTouchTheStack := by
  intro i s t h
  refine ⟨fun hne => ?_, (exec_stk_cases h).resolve_left⟩
  by_cases hcall : ∃ nnn, i = .call nnn
  · obtain ⟨nnn, rfl⟩ := hcall
    exact .inl ⟨nnn, rfl, (execCall_v_sp h).2.resolve_right hne⟩
  · by_cases hret : i = .ret
    · subst hret
      exact .inr ⟨rfl, (execRet_v_sp h).2.resolve_right hne⟩
    · exact absurd (exec_keeps_sp h (fun nnn e => hcall ⟨nnn, e⟩) hret) hne

/-! ### VF -/

/-- Settles O33: an instruction without a flag writes no register, `V[X]` alone, or `V[0]` to `V[X]`; VF is the
last register, so it is among these only as `V[X]`. -/
theorem vfKeptByInstructionsWithoutFlag : Obligations.VfKeptByInstructionsWithoutFlag := by
  intro i s t h hflag hx
  have hne : ∀ x, i.xField = some x → vf ≠ x := fun x e e' => hx (e' ▸ e)
  cases i
  case addReg | subReg | subnReg | shr | shl | drw => cases hflag
  case call nnn => exact congrArg (·.get vf) (execCall_v_sp h).1
  case ret => exact congrArg (·.get vf) (execRet_v_sp h).1
  case ldB x => exact congrArg (·.get vf) (execLdB_keeps_v_sp h).1
  case ldMemVx x => exact congrArg (·.get vf) (execLdMemVx_keeps_v_sp h).1
  case ldVxMem x => exact (execLdVxMem_keeps h).1 vf ((Fin.le_last x).lt_of_ne (hne x rfl).symm)
  case ldVxK x => cases h; exact (takeKey_keeps s x).1 vf (hne x rfl)
  case ldImm x _ | addImm x _ | ldReg x _ | orReg x _ | andReg x _ | xorReg x _ | rnd x _ | ldVxDt x =>
    cases h
    exact setReg_reg_ne s _ (hne x rfl)
  all_goals cases h; rfl

end Sys2Proof.Machine

/-! ### Memory: every step has a successor, only stores write, and the next fetch sees them (R43, R44, R46, R56) -/

namespace Sys2Proof.Machine

/-! ### Every instruction and every step answers a next state -/

theorem storeAtIdx_next (s : State) (bs : List Byte) (k : State → State) : ∃ t, storeAtIdx s bs k = .next t := by
  rcases storeAtIdx_cases s bs k with ⟨e, -, -, h⟩ | ⟨-, u, -, h⟩
  · exact ⟨_, h⟩
  · exact ⟨_, h⟩

theorem execCall_next (nnn : Addr12) (s : State) : ∃ t, execCall nnn s = .next t := by
  unfold execCall
  cases s.push? (s.pc + 2) with
  | none => exact ⟨_, rfl⟩
  | some u => exact ⟨_, rfl⟩

theorem execRet_next (s : State) : ∃ t, execRet s = .next t := by
  unfold execRet
  cases s.pop? with
  | none => exact ⟨_, rfl⟩
  | some p => exact ⟨_, rfl⟩

/-- The read of `LD VX,[I]` lies inside the extent once the check of R208 (a) has passed, so the contract of R43
holds. -/
theorem execLdVxMem_next (x : RegIx) (s : State) : ∃ t, execLdVxMem x s = .next t := by
  unfold execLdVxMem
  rcases boundsEvent_cases s .load (x.val + 1) with ⟨hfits, he⟩ | ⟨-, he⟩
  · have hread : s.readBytes (s.ea 0) (x.val + 1) = _ := readBytes_eq hfits
    simp only [he, hread]
    exact ⟨_, rfl⟩
  · simp only [he]
    exact ⟨_, rfl⟩

/-- No instruction faults and none is refused. -/
theorem exec_next (i : Instr) (s : State) : ∃ t, exec i s = .next t := by
  cases i
  case call nnn => exact execCall_next nnn s
  case ret => exact execRet_next s
  case ldB x => exact storeAtIdx_next s _ _
  case ldMemVx x => exact storeAtIdx_next s _ _
  case ldVxMem x => exact execLdVxMem_next x s
  all_goals exact ⟨_, rfl⟩

theorem runWord_next (s : State) (w : Word) : ∃ t, s.runWord w = .next t := by
  unfold State.runWord
  cases decode s.params w with
  | unknown u => exact ⟨_, rfl⟩
  | instr i =>
    obtain ⟨t, ht⟩ := exec_next i s
    exact ⟨t.finishTick, by simp only [ht]⟩

/-- No step faults and none is refused. -/
theorem step_next (s : State) : ∃ t, step s = .next t := by
  unfold step State.tick
  cases s.run with
  | stopped => exact ⟨_, rfl⟩
  | faulted => exact ⟨_, rfl⟩
  | running =>
    cases s.tickInput.stop with
    | true => exact ⟨_, rfl⟩
    | false =>
      cases s.fetchWord with
      | none => exact ⟨_, rfl⟩
      | some w => exact runWord_next s w

/-- Settles O17: the address checks of R174 and R208 stand before every block access, so the contract of R43 and R44
is met. -/
theorem everyStepHasANextState : Obligations.EveryStepHasANextState := ⟨step_next, exec_next⟩

/-! ### What follows the bytes of a store -/

/-- `k` is what an instruction does after it has stored its bytes: `PC` advances, and at most `I` changes besides
(R173, R206, R209). -/
def StoreTail (k : State → State) : Prop := ∀ u, k u = { u with idx := (k u).idx, pc := u.pc + 2 }

theorem storeTail_advance : StoreTail State.advance := fun _ => rfl

theorem storeTail_bumpIdx_advance (x : RegIx) : StoreTail fun u => (u.bumpIdx x).advance := fun u =>
  bumpIdx_advance u x

theorem StoreTail.byteAt {k : State → State} (h : StoreTail k) (u : State) (a : Nat) : (k u).byteAt a = u.byteAt a := by
  rw [h u]; rfl

theorem StoreTail.run {k : State → State} (h : StoreTail k) (u : State) : (k u).run = u.run := by rw [h u]

theorem StoreTail.pc {k : State → State} (h : StoreTail k) (u : State) : (k u).pc = u.pc + 2 := by rw [h u]

theorem bcdDigits_length (b : Byte) : (bcdDigits b).length = 3 := rfl

theorem blockRegs_length (s : State) (x : RegIx) : (s.v.toList.take (x.val + 1)).length = x.val + 1 := by
  rw [List.length_take, Vector.length_toList]
  omega

/-! ### Only the stores change memory -/

/-- A checked store changes only bytes of its own block (R46), whatever the memory list. -/
theorem storeAtIdx_changes {s t : State} {bs : List Byte} {k : State → State} {a : Nat} (hk : StoreTail k)
    (h : storeAtIdx s bs k = .next t) (hne : t.byteAt a ≠ s.byteAt a) :
    s.idx.toNat ≤ a ∧ a < s.idx.toNat + bs.length := by
  rcases storeAtIdx_cases s bs k with ⟨e, -, -, h'⟩ | ⟨he, u, hu, h'⟩
  · cases h.symm.trans h'
    exact absurd (by rw [raise_frame]; rfl) hne
  · cases h.symm.trans h'
    obtain ⟨u', hu', -, -, hkeep, -⟩ := writeBytes_spec (storeEvent_none_le he)
    cases hu.symm.trans hu'
    rw [hk.byteAt] at hne
    by_contra hout
    exact hne (hkeep a (by omega))

/-- An instruction that is neither `LD B,VX` nor `LD [I],VX` changes no byte of `MEM` (R46). -/
theorem exec_keeps_memory {i : Instr} {s t : State} (h : exec i s = .next t)
    (hi : ¬ ∃ x, i = .ldB x ∨ i = .ldMemVx x) : SameMemory s t := by
  rcases exec_cases h with ⟨e, -, rfl⟩ | hc
  · exact fun _ => rfl
  · rcases hc.stores with hm | ⟨hst, -⟩
    · exact byteAt_congr hm hc.params_eq
    · exact absurd hst hi

/-- Settles O38: a changed byte rules out every instruction but the two stores, and each of these changes its own
block alone. -/
theorem onlyStoresChangeMemory : Obligations.OnlyStoresChangeMemory := by
  intro i s t a h hne
  by_cases hst : ∃ x, i = .ldB x ∨ i = .ldMemVx x
  · obtain ⟨x, rfl | rfl⟩ := hst
    · obtain ⟨hlo, hhi⟩ := storeAtIdx_changes storeTail_advance h hne
      rw [bcdDigits_length] at hhi
      exact ⟨hlo, .inl ⟨x, rfl, by omega⟩⟩
    · obtain ⟨hlo, hhi⟩ := storeAtIdx_changes (storeTail_bumpIdx_advance x) h hne
      rw [blockRegs_length] at hhi
      exact ⟨hlo, .inr ⟨x, rfl, by omega⟩⟩
  · exact absurd (exec_keeps_memory h hst a) hne

/-! ### The bytes a store leaves -/

theorem byteAfterStore_of_hit {s : State} {bs : List Byte} {j : Nat} (hj : j < bs.length)
    (hw : s.writable (s.idx.toNat + j)) : s.byteAfterStore bs (s.idx.toNat + j) = bs[j] := by
  have hcond : s.idx.toNat ≤ s.idx.toNat + j ∧ (0x50 ≤ s.idx.toNat + j ∨ s.params.fontStore = .allow) :=
    ⟨Nat.le_add_right _ _, hw⟩
  rw [State.byteAfterStore, if_pos hcond, Nat.add_sub_cancel_left, List.getElem?_eq_getElem hj, Option.getD_some]

theorem byteAfterStore_of_miss {s : State} {bs : List Byte} {a : Nat}
    (h : a < s.idx.toNat ∨ s.idx.toNat + bs.length ≤ a ∨ ¬ s.writable a) : s.byteAfterStore bs a = s.byteAt a := by
  unfold State.byteAfterStore
  split
  next hcond =>
    obtain ⟨hlo, hw⟩ := hcond
    have hlen : bs.length ≤ a - s.idx.toNat := by
      rcases h with hlt | hge | hnw
      · omega
      · omega
      · exact absurd hw hnw
    rw [List.getElem?_eq_none hlen, Option.getD_none]
  next => rfl

/-- A block store through `I` leaves the bytes of `byteAfterStore` (R44, R47, R50, R52). -/
theorem writeBytes_byteAt {s u : State} {bs : List Byte} (hs : s.MemCanonical)
    (hfits : s.idx.toNat + bs.length ≤ memBytes) (hu : s.writeBytes s.idx.toNat bs = .ok u) (a : Nat) :
    u.byteAt a = s.byteAfterStore bs a := by
  obtain ⟨u', hu', -, -, hmiss, hhit⟩ := writeBytes_spec hfits
  cases hu.symm.trans hu'
  by_cases h : a < s.idx.toNat ∨ s.idx.toNat + bs.length ≤ a ∨ ¬ s.writable a
  · rw [hmiss a h, byteAfterStore_of_miss h]
  · push Not at h
    obtain ⟨hlo, hhi, hw⟩ := h
    obtain ⟨j, rfl⟩ := Nat.exists_eq_add_of_le hlo
    have hj : j < bs.length := by omega
    rw [hhit hs j hj hw, byteAfterStore_of_hit hj hw]

/-- The checks of R174 and R208 pass for a block inside the extent that may be stored where it lies. -/
theorem storeEvent_eq_none {s : State} {n : Nat} (hfits : s.idx.toNat + n ≤ memBytes)
    (hfont : fontBytes ≤ s.idx.toNat ∨ s.params.fontStore ≠ .fault) : s.storeEvent n = none := by
  rcases storeEvent_cases s n with ⟨-, -, he⟩ | ⟨hout, -⟩ | ⟨-, hlow, hfault, -⟩
  · exact he
  · omega
  · exact absurd hfault (hfont.resolve_left (by omega))

/-- A checked store that passes its checks completes: the block is stored and `PC` advances (R173, R206). -/
theorem storeAtIdx_completes {s : State} {bs : List Byte} {k : State → State} (hk : StoreTail k)
    (hs : s.MemCanonical) (hfits : s.idx.toNat + bs.length ≤ memBytes)
    (hfont : fontBytes ≤ s.idx.toNat ∨ s.params.fontStore ≠ .fault) :
    ∃ t, storeAtIdx s bs k = .next t ∧ t.run = s.run ∧ t.pc = s.pc + 2 ∧ ∀ a, t.byteAt a = s.byteAfterStore bs a := by
  have hpass := storeEvent_eq_none hfits hfont
  rcases storeAtIdx_cases s bs k with ⟨e, -, he, -⟩ | ⟨-, u, hu, h⟩
  · cases hpass.symm.trans he
  · obtain ⟨hset, -⟩ := checkedStore_spec hpass hu
    refine ⟨k u, h, ?_, ?_, fun a => ?_⟩
    · rw [hk.run, hset, setMem_run]
    · rw [hk.pc, hset, setMem_pc]
    · rw [hk.byteAt, writeBytes_byteAt hs hfits hu]

/-! ### The next fetch -/

theorem fetchWord_eq_some {s : State} (h : s.pc.toNat ≤ 0x0FFE) :
    s.fetchWord = some (wordOfBytes (s.byteAt s.pc.toNat) (s.byteAt (s.pc.toNat + 1))) :=
  if_neg (Nat.not_lt.mpr h)

/-- The stages after execute touch nothing that the next fetch reads. -/
theorem finishTick_fetchWord {s : State} (h : s.run = .running) : s.finishTick.fetchWord = s.fetchWord := by
  rw [finishTick_running h]; rfl

theorem runWord_of_exec {s t : State} {w : Word} {i : Instr} (hd : decode s.params w = .instr i)
    (h : exec i s = .next t) : s.runWord w = .next t.finishTick := by
  simp only [State.runWord, hd, h]

/-- A tick that is ready for `i` executes it and does the rest of the tick (R100). -/
theorem State.ReadyFor.step_eq {s t : State} {i : Instr} (hi : s.ReadyFor i) (h : exec i s = .next t) :
    step s = .next t.finishTick := by
  simp only [step, State.tick, hi.running, hi.noStop, hi.fetchWord, Bool.false_eq_true, if_false]
  exact runWord_of_exec hi.decoded h

/-- After an instruction that goes on to the next one, the next fetch reads the two bytes at `PC + 2` as that
instruction left them (R52, R56). -/
theorem State.ReadyFor.next_fetch {s u : State} {i : Instr} (hi : s.ReadyFor i) (h : exec i s = .next u)
    (hrun : u.run = s.run) (hpc : u.pc = s.pc + 2) (hle : s.pc.toNat ≤ 0x0FFC) :
    ∃ t, step s = .next t ∧ PcPlus 2 s t ∧ t.run = .running ∧
      t.fetchWord = some (wordOfBytes (u.byteAt (s.pc.toNat + 2)) (u.byteAt (s.pc.toNat + 3))) := by
  have hrunning : u.run = .running := hrun.trans hi.running
  have hnext : u.pc.toNat = s.pc.toNat + 2 := by
    rw [hpc]
    bv_omega
  refine ⟨u.finishTick, hi.step_eq h, ?_, ?_, ?_⟩
  · rw [finishTick_running hrunning]
    show u.pc.toNat = _
    omega
  · rw [finishTick_running hrunning]
    exact hrunning
  · rw [finishTick_fetchWord hrunning, fetchWord_eq_some (by omega), hnext]

/-- R56 for an instruction that is a checked store of the bytes `bs`. -/
theorem State.ReadyFor.store_seen {s : State} {i : Instr} {bs : List Byte} {k : State → State} (hi : s.ReadyFor i)
    (hexec : exec i s = storeAtIdx s bs k) (hk : StoreTail k) (hs : s.MemCanonical) (hle : s.pc.toNat ≤ 0x0FFC)
    (hfits : s.idx.toNat + bs.length ≤ memBytes) (hfont : fontBytes ≤ s.idx.toNat ∨ s.params.fontStore ≠ .fault) :
    ∃ t, step s = .next t ∧ PcPlus 2 s t ∧ t.run = .running ∧ t.fetchWord =
      some (wordOfBytes (s.byteAfterStore bs (s.pc.toNat + 2)) (s.byteAfterStore bs (s.pc.toNat + 3))) := by
  obtain ⟨u, hu, hrun, hpc, hbyte⟩ := storeAtIdx_completes hk hs hfits hfont
  rw [← hbyte, ← hbyte]
  exact hi.next_fetch (hexec.trans hu) hrun hpc hle

/-- Settles O39: both instructions are checked stores, of three digits and of the registers V0 to VX. -/
theorem storeIsSeenByTheNextFetch : Obligations.StoreIsSeenByTheNextFetch := by
  intro x s hs hle hfont
  constructor
  · rintro _ rfl hi hin
    refine hi.store_seen (bs := bcdDigits (s.reg x)) rfl storeTail_advance hs hle ?_ hfont
    rw [bcdDigits_length, memBytes]
    omega
  · rintro _ rfl hi hin
    refine hi.store_seen rfl (storeTail_bumpIdx_advance x) hs hle ?_ hfont
    rw [blockRegs_length, memBytes]
    omega

end Sys2Proof.Machine

/-! ### Encoding: decode and encode are inverse, the opcode table, and the `Unknown` words (R71 to R79)

`decode` is `decodeTable` behind the gate of R200, so the facts are about `decodeTable`: it inverts `encode` on both
sides, and the row that it chooses depends on the bits that the row's mask keeps. -/

namespace Sys2Proof

/-! ### The gate of R200 -/

theorem decode_eq_instr_iff {p : Params} {w : Word} {i : Instr} :
    decode p w = .instr i ↔ decodeTable w = some i ∧ i.wellFormed p = true := by
  unfold decode
  cases decodeTable w with
  | none => simp
  | some j =>
    by_cases hj : j.wellFormed p = true
    · simp only [hj, if_true, Decoded.instr.injEq, Option.some.injEq]
      exact ⟨fun h => ⟨h, h ▸ hj⟩, And.left⟩
    · simp only [hj, Bool.false_eq_true, if_false, reduceCtorEq, Option.some.injEq, false_iff]
      exact fun ⟨h, hi⟩ => hj (h ▸ hi)

theorem decode_eq_unknown_iff {p : Params} {w : Word} :
    decode p w = .unknown w ↔ ∀ i, decodeTable w = some i → i.wellFormed p = false := by
  unfold decode
  cases decodeTable w <;> simp

/-! ### The families with a second selector (R74) -/

theorem decodeTable_family0 {w : Word} (hf : fieldF w = 0x0#4) :
    decodeTable w = if w = 0x00E0#16 then some .cls else if w = 0x00EE#16 then some .ret else none := by
  simp only [decodeTable, hf]

theorem decodeTable_family8 {w : Word} (hf : fieldF w = 0x8#4) : decodeTable w = decodeFamily8 w := by
  simp only [decodeTable, hf]

theorem decodeTable_familyE {w : Word} (hf : fieldF w = 0xE#4) : decodeTable w = decodeFamilyE w := by
  simp only [decodeTable, hf]

theorem decodeTable_familyF {w : Word} (hf : fieldF w = 0xF#4) : decodeTable w = decodeFamilyF w := by
  simp only [decodeTable, hf]

/-! ### Encode, then decode -/

/-- The decoder reads back the fields that the encoder put into the word of its format (R71, R72). -/
theorem decodeTable_encode (i : Instr) : decodeTable (encode i) = some i := by
  cases i with
  | cls | ret => rfl
  | jp | call | ldI | jpV0 => simp [encode, decodeTable]
  | seImm | sneImm | ldImm | addImm | rnd => simp [encode, decodeTable]
  | seReg | sneReg | drw => simp [encode, decodeTable]
  | ldReg | orReg | andReg | xorReg | addReg | subReg | shr | subnReg | shl =>
    simp [encode, decodeTable_family8, decodeFamily8]
  | skp | sknp => simp [encode, decodeTable_familyE, decodeFamilyE]
  | addI | ldB | ldVxDt | ldVxK | ldDtVx | ldStVx | ldF | ldMemVx | ldVxMem =>
    simp [encode, decodeTable_familyF, decodeFamilyF]

/-- Settles O1: the decoder reads the instruction back, and the gate lets it pass. -/
theorem decodeInvertsEncode : Obligations.DecodeInvertsEncode := fun _ i hi =>
  decode_eq_instr_iff.mpr ⟨decodeTable_encode i, hi⟩

/-! ### Decode, then encode: a word is the word of its own fields -/

theorem formA_of_fields {w : Word} {f : Nibble} (hf : fieldF w = f) : formA f (fieldNNN w) = w := by
  subst hf
  apply BitVec.eq_of_toNat_eq
  rw [formA_toNat, fieldF_toNat, fieldNNN_toNat]
  omega

theorem formXNN_of_fields {w : Word} {f : Nibble} {nn : Byte} (hf : fieldF w = f) (hn : fieldNN w = nn) :
    formXNN f (fieldX w) nn = w :=
  word_ext_fields (by simp [hf]) (by simp) (by simp [hn])

theorem formXYN_of_fields {w : Word} {f n : Nibble} (hf : fieldF w = f) (hn : fieldN w = n) :
    formXYN f (fieldX w) (fieldY w) n = w := by
  subst hf hn
  apply BitVec.eq_of_toNat_eq
  rw [formXYN_toNat, fieldF_toNat, fieldX_val, fieldY_val, fieldN_toNat]
  omega

theorem encode_of_decodeFamily8 {w : Word} {i : Instr} (hf : fieldF w = 0x8#4) (h : decodeFamily8 w = some i) :
    encode i = w := by
  unfold decodeFamily8 at h
  split at h <;> cases h <;> exact formXYN_of_fields hf ‹_›

theorem encode_of_decodeFamilyE {w : Word} {i : Instr} (hf : fieldF w = 0xE#4) (h : decodeFamilyE w = some i) :
    encode i = w := by
  unfold decodeFamilyE at h
  split at h <;> cases h <;> exact formXNN_of_fields hf ‹_›

theorem encode_of_decodeFamilyF {w : Word} {i : Instr} (hf : fieldF w = 0xF#4) (h : decodeFamilyF w = some i) :
    encode i = w := by
  unfold decodeFamilyF at h
  split at h <;> cases h <;> exact formXNN_of_fields hf ‹_›

theorem encode_of_decodeTable {w : Word} {i : Instr} (h : decodeTable w = some i) : encode i = w := by
  unfold decodeTable at h
  split at h
  case h_1 => split_ifs at h with hw hw <;> cases h <;> exact hw.symm
  case h_9 hf => exact encode_of_decodeFamily8 hf h
  case h_15 hf => exact encode_of_decodeFamilyE hf h
  case h_16 hf => exact encode_of_decodeFamilyF hf h
  case h_17 => cases h
  case h_2 hf | h_3 hf | h_11 hf | h_12 hf => cases h; exact formA_of_fields hf
  case h_4 hf | h_5 hf | h_7 hf | h_8 hf | h_13 hf => cases h; exact formXNN_of_fields hf rfl
  case h_6 hf | h_10 hf | h_14 hf => cases h; exact formXYN_of_fields hf rfl

/-- Settles O2: what the decoder reads encodes back to the word, and the gate lets only the block's own pass. -/
theorem encodeInvertsDecode : Obligations.EncodeInvertsDecode := fun _ _ _ h =>
  have ⟨hi, hwf⟩ := decode_eq_instr_iff.mp h
  ⟨encode_of_decodeTable hi, hwf⟩

/-! ### The opcode table against the decoder (R74 to R76) -/

/-- Each instruction has its row. -/
theorem rowMatch : ∀ i : Instr, Laws.RowMatch.Statement i
  | .cls => Laws.RowMatch.cls
  | .ret => Laws.RowMatch.ret
  | .jp _ => Laws.RowMatch.jp _
  | .call _ => Laws.RowMatch.call _
  | .seImm _ _ => Laws.RowMatch.seImm _ _
  | .sneImm _ _ => Laws.RowMatch.sneImm _ _
  | .seReg _ _ _ => Laws.RowMatch.seReg _ _ _
  | .ldImm _ _ => Laws.RowMatch.ldImm _ _
  | .addImm _ _ => Laws.RowMatch.addImm _ _
  | .ldReg _ _ => Laws.RowMatch.ldReg _ _
  | .orReg _ _ => Laws.RowMatch.orReg _ _
  | .andReg _ _ => Laws.RowMatch.andReg _ _
  | .xorReg _ _ => Laws.RowMatch.xorReg _ _
  | .addReg _ _ => Laws.RowMatch.addReg _ _
  | .subReg _ _ => Laws.RowMatch.subReg _ _
  | .shr _ _ => Laws.RowMatch.shr _ _
  | .subnReg _ _ => Laws.RowMatch.subnReg _ _
  | .shl _ _ => Laws.RowMatch.shl _ _
  | .sneReg _ _ _ => Laws.RowMatch.sneReg _ _ _
  | .ldI _ => Laws.RowMatch.ldI _
  | .rnd _ _ => Laws.RowMatch.rnd _ _
  | .drw _ _ _ => Laws.RowMatch.drw _ _ _
  | .addI _ => Laws.RowMatch.addI _
  | .ldB _ => Laws.RowMatch.ldB _
  | .jpV0 _ => Laws.RowMatch.jpV0 _
  | .skp _ => Laws.RowMatch.skp _
  | .sknp _ => Laws.RowMatch.sknp _
  | .ldVxDt _ => Laws.RowMatch.ldVxDt _
  | .ldVxK _ => Laws.RowMatch.ldVxK _
  | .ldDtVx _ => Laws.RowMatch.ldDtVx _
  | .ldStVx _ => Laws.RowMatch.ldStVx _
  | .ldF _ => Laws.RowMatch.ldF _
  | .ldMemVx _ => Laws.RowMatch.ldMemVx _
  | .ldVxMem _ => Laws.RowMatch.ldVxMem _

/-- The mnemonic of the row that the decoder chooses for a word. -/
def rowMnemonic (w : Word) : Option Mnemonic := (decodeTable w).map Instr.mnemonic

/-- Outside families 0, 8, E and F the family alone chooses the row. -/
theorem rowMnemonic_congr_family {w u : Word} (hf : fieldF w = fieldF u)
    (hu : fieldF u ∉ [0x0#4, 0x8#4, 0xE#4, 0xF#4]) : rowMnemonic w = rowMnemonic u := by
  unfold rowMnemonic decodeTable
  rw [hf]
  split
  case h_1 h | h_9 h | h_15 h | h_16 h => simp [h] at hu
  all_goals rfl

/-- In family 8 the selector `N` chooses the row. -/
theorem rowMnemonic_congr_nibble {w u : Word} (hf : fieldF w = fieldF u) (hu : fieldF u = 0x8#4)
    (hn : fieldN w = fieldN u) : rowMnemonic w = rowMnemonic u := by
  rw [rowMnemonic, rowMnemonic, decodeTable_family8 hu, decodeTable_family8 (hf.trans hu)]
  unfold decodeFamily8
  rw [hn]
  split <;> rfl

/-- In families E and F the selector `NN` chooses the row. -/
theorem rowMnemonic_congr_byte {w u : Word} (hf : fieldF w = fieldF u) (hu : fieldF u = 0xE#4 ∨ fieldF u = 0xF#4)
    (hn : fieldNN w = fieldNN u) : rowMnemonic w = rowMnemonic u := by
  unfold rowMnemonic
  rcases hu with hu | hu
  · rw [decodeTable_familyE hu, decodeTable_familyE (hf.trans hu)]
    unfold decodeFamilyE
    rw [hn]
    split <;> rfl
  · rw [decodeTable_familyF hu, decodeTable_familyF (hf.trans hu)]
    unfold decodeFamilyF
    rw [hn]
    split <;> rfl

/-- The mask of a row keeps exactly the selectors of its family. -/
theorem opcodeRows_mask_cases : ∀ r ∈ opcodeRows, r.mask = 0xFFFF#16 ∨
    (r.mask = 0xF000#16 ∧ fieldF r.value ∉ [0x0#4, 0x8#4, 0xE#4, 0xF#4]) ∨
    (r.mask = 0xF00F#16 ∧ fieldF r.value = 0x8#4) ∨
    (r.mask = 0xF0FF#16 ∧ (fieldF r.value = 0xE#4 ∨ fieldF r.value = 0xF#4)) := by decide

theorem rowMnemonic_value : ∀ r ∈ opcodeRows, rowMnemonic r.value = some r.mnemonic := by decide

/-- The decoder chooses the row that the word matches. -/
theorem rowMnemonic_of_matchesWord {r : OpcodeRow} {w : Word} (hr : r ∈ opcodeRows) (h : r.matchesWord w = true) :
    rowMnemonic w = some r.mnemonic := by
  have hv : w &&& r.mask = r.value := eq_of_beq h
  rw [← rowMnemonic_value r hr]
  rcases opcodeRows_mask_cases r hr with hm | ⟨hm, hF⟩ | ⟨hm, hF⟩ | ⟨hm, hF⟩ <;> rw [hm] at hv
  · rw [← hv, show w &&& 0xFFFF#16 = w from BitVec.and_allOnes]
  · rw [and_F000] at hv
    exact rowMnemonic_congr_family (by simp [← hv]) hF
  · rw [and_F00F] at hv
    exact rowMnemonic_congr_nibble (by simp [← hv]) hF (by simp [← hv])
  · rw [and_F0FF] at hv
    exact rowMnemonic_congr_byte (by simp [← hv]) hF (by simp [← hv])

theorem opcodeRows_nodup_mnemonic : (opcodeRows.map OpcodeRow.mnemonic).Nodup := by decide

/-- No word matches two rows: they would be rows of one mnemonic. -/
theorem row_unique {r q : OpcodeRow} {w : Word} (hr : r ∈ opcodeRows) (hq : q ∈ opcodeRows)
    (hrw : r.matchesWord w = true) (hqw : q.matchesWord w = true) : r = q :=
  List.inj_on_of_nodup_map opcodeRows_nodup_mnemonic hr hq <| Option.some.inj <|
    (rowMnemonic_of_matchesWord hr hrw).symm.trans (rowMnemonic_of_matchesWord hq hqw)

/-- A word matches no row besides the one it is known to match. -/
theorem filter_matchesWord {r : OpcodeRow} {w : Word} (hr : r ∈ opcodeRows) (h : r.matchesWord w = true) :
    opcodeRows.filter (fun q => q.matchesWord w) = [r] := by
  have hnodup : opcodeRows.Nodup := opcodeRows_nodup_mnemonic.of_map
  refine List.perm_singleton.mp <|
    (List.perm_ext_iff_of_nodup (hnodup.filter _) (List.nodup_singleton r)).mpr fun q => ?_
  rw [List.mem_filter, List.mem_singleton]
  exact ⟨fun hq => row_unique hq.1 hr hq.2 h, by rintro rfl; exact ⟨hr, h⟩⟩

/-- The row of the instruction that the decoder reads. -/
theorem exists_row_of_decodeTable {w : Word} {i : Instr} (h : decodeTable w = some i) :
    ∃ r ∈ opcodeRows, r.matchesWord w = true ∧ r.group = i.group ∧ r.mnemonic = i.mnemonic := by
  have hrow := rowMatch i
  rwa [Laws.RowMatch.Statement, encode_of_decodeTable h] at hrow

/-- Settles O3: a word that the decoder reads matches the row of its instruction, which is the only one, and the gate
looks at the group of that row; a word that it does not read matches no row. -/
theorem everyWordMatchesOneRowOrIsUnknown : Obligations.EveryWordMatchesOneRowOrIsUnknown := by
  intro p w
  cases h : decodeTable w with
  | none =>
    refine .inr ⟨decode_eq_unknown_iff.mpr (by simp [h]), fun r hr hw => ?_⟩
    simpa [rowMnemonic, h] using rowMnemonic_of_matchesWord hr hw
  | some i =>
    obtain ⟨r, hr, hw, hgroup, hname⟩ := exists_row_of_decodeTable h
    cases hwf : i.wellFormed p with
    | true =>
      have hdecode := decode_eq_instr_iff.mpr ⟨h, hwf⟩
      exact .inl ⟨i, r, hdecode, filter_matchesWord hr hw, hname, hgroup, hgroup ▸ hwf⟩
    | false =>
      refine .inr ⟨decode_eq_unknown_iff.mpr (by simp [h, hwf]), fun q hq hqw => ?_⟩
      rw [row_unique hq hr hqw hw, hgroup]
      exact hwf

/-! ### The `Unknown` words, family by family (R79) -/

theorem nibble_mem (n : Nibble) : n ∈ [0x0#4, 0x1#4, 0x2#4, 0x3#4, 0x4#4, 0x5#4, 0x6#4, 0x7#4, 0x8#4, 0x9#4, 0xA#4,
    0xB#4, 0xC#4, 0xD#4, 0xE#4, 0xF#4] := by
  revert n
  decide

theorem unknown_family0_iff {p : Params} {w : Word} (hf : fieldF w = 0x0#4) :
    decode p w = .unknown w ↔ w ≠ 0x00E0#16 ∧ w ≠ 0x00EE#16 := by
  rw [decode_eq_unknown_iff, decodeTable_family0 hf]
  split_ifs with h h <;> simp_all [Instr.wellFormed, Instr.group, Group.enabled]

theorem unknown_family8_iff {p : Params} {w : Word} (hf : fieldF w = 0x8#4) :
    decode p w = .unknown w ↔ fieldN w ∈ [0x8#4, 0x9#4, 0xA#4, 0xB#4, 0xC#4, 0xD#4, 0xF#4] := by
  rw [decode_eq_unknown_iff, decodeTable_family8 hf]
  unfold decodeFamily8
  split
  case h_10 =>
    have hmem := nibble_mem (fieldN w)
    simp_all
  all_goals simp_all [Instr.wellFormed, Instr.group, Group.enabled]

theorem unknown_familyB_iff {p : Params} {w : Word} (hf : fieldF w = 0xB#4) :
    decode p w = .unknown w ↔ p.extJumpV0 = false := by
  rw [decode_eq_unknown_iff, show decodeTable w = some (.jpV0 (fieldNNN w)) by simp only [decodeTable, hf]]
  simp [Instr.wellFormed, Instr.group, Group.enabled]

theorem unknown_familyE_iff {p : Params} {w : Word} (hf : fieldF w = 0xE#4) :
    decode p w = .unknown w ↔ p.extKey = false ∨ fieldNN w ∉ [0x9E#8, 0xA1#8] := by
  rw [decode_eq_unknown_iff, decodeTable_familyE hf]
  unfold decodeFamilyE
  split <;> simp_all [Instr.wellFormed, Instr.group, Group.enabled]

theorem unknown_familyF_iff {p : Params} {w : Word} (hf : fieldF w = 0xF#4) :
    decode p w = .unknown w ↔ fieldNN w ∉ [0x1E#8, 0x33#8] ∧
      (p.extTimer = false ∨ fieldNN w ∉ [0x07#8, 0x15#8, 0x18#8]) ∧
      (p.extKey = false ∨ fieldNN w ≠ 0x0A#8) ∧ (p.extFont = false ∨ fieldNN w ≠ 0x29#8) ∧
      (p.extRegmem = false ∨ fieldNN w ∉ [0x55#8, 0x65#8]) := by
  rw [decode_eq_unknown_iff, decodeTable_familyF hf]
  unfold decodeFamilyF
  split <;> simp_all [Instr.wellFormed, Instr.group, Group.enabled]

/-- Every word of the other families is an instruction of the base set. -/
theorem known_of_base_family {p : Params} {w : Word} (hf : fieldF w ∉ [0x0#4, 0x8#4, 0xB#4, 0xE#4, 0xF#4]) :
    decode p w ≠ .unknown w := by
  rw [Ne, decode_eq_unknown_iff]
  unfold decodeTable
  split
  case h_17 =>
    have hmem := nibble_mem (fieldF w)
    simp_all
  all_goals simp_all [Instr.wellFormed, Instr.group, Group.enabled]

/-- Settles O4: the five families with `Unknown` words one by one, and none in the others. -/
theorem unknownWordsByFamily : Obligations.UnknownWordsByFamily := by
  intro p w
  by_cases h0 : fieldF w = 0x0#4
  · simp [h0, unknown_family0_iff h0]
  by_cases h8 : fieldF w = 0x8#4
  · simp [h8, unknown_family8_iff h8]
  by_cases hB : fieldF w = 0xB#4
  · simp [hB, unknown_familyB_iff hB]
  by_cases hE : fieldF w = 0xE#4
  · simp [hE, unknown_familyE_iff hE]
  by_cases hF : fieldF w = 0xF#4
  · simp [hF, unknown_familyF_iff hF]
  · simp [h0, h8, hB, hE, hF, known_of_base_family (w := w)]

/-- Settles O5: each word is written out, and the decoder is run on it. -/
theorem sampleWordsDecode : Obligations.SampleWordsDecode := by
  unfold Obligations.SampleWordsDecode
  decide

end Sys2Proof

/-! ### The tick: which stages run, and what one tick emits (R100 to R109, R113) -/

namespace Sys2Proof.Machine

/-! ### One equation of the tick for each way it can go -/

/-- The rest of the tick runs unless a fatal event has ended the run (R106 to R108). -/
theorem finishTick_eq_ite (s : State) :
    s.finishTick = if s.run = .running then s.timerStage.renderStage.consumeInput else s := by
  unfold State.finishTick
  cases s.run <;> rfl

theorem fetchWord_eq_none {s : State} (h : 0x0FFE < s.pc.toNat) : s.fetchWord = none := if_pos h

/-- A fatal event halts the machine and the rest of its tick is skipped (R106, R239). -/
theorem raise_finishTick_of_fatal (s : State) {e : Event} (h : e.fatal = true) :
    (s.raise e).finishTick = s.haltedBy e := by
  rw [raise_fatal s h]; rfl

/-- Settles O7: it is `ReadyFor.step_eq` with the rest of the tick written out. -/
theorem stepRunsTheDecodedInstruction : Obligations.StepRunsTheDecodedInstruction := by
  intro s t i hi h
  rw [hi.step_eq h, finishTick_eq_ite]

/-- Settles O8: the tick looks at `RUN` before anything else. -/
theorem haltedTickChangesNothing : Obligations.HaltedTickChangesNothing := by
  rintro s (h | h)
  · simp only [step, State.tick, h]
  · simp only [step, State.tick, h]

/-- Settles O9: the stop signal is looked at before the fetch. -/
theorem stopSignalStopsTheMachine : Obligations.StopSignalStopsTheMachine := by
  intro s hrun hstop
  simp only [step, State.tick, hrun, hstop, if_true]
  rfl

/-- Settles O10: no word is fetched, and the fatal event ends the tick. -/
theorem fetchOutsideMemoryIsFatal : Obligations.FetchOutsideMemoryIsFatal := by
  intro s hrun hstop hpc
  simp only [step, State.tick, hrun, hstop, fetchWord_eq_none hpc, Bool.false_eq_true, if_false]
  rw [raise_finishTick_of_fatal s rfl]

/-! ### What a step can do, by what it emits -/

/-- A step stays halted, stops, is ended by a fatal event, or completes an instruction and does the rest of the
tick. -/
theorem step_outcomes {s t : State} (h : step s = .next t) :
    (s.run ≠ .running ∧ t = s) ∨ t = s.setRun .stopped ∨ (∃ e : Event, e.fatal = true ∧ t = s.haltedBy e) ∨
    (∃ i u, s.ReadyFor i ∧ Completes i s u ∧ t = u.finishTick) := by
  rcases step_cases h with hhalted | ⟨-, -, hstop⟩ | ⟨-, -, -, hfetch⟩ | ⟨-, -, -, w, -, hword⟩ | ⟨i, u, hi, hu, ht⟩
  · exact .inl hhalted
  · exact .inr (.inl hstop)
  · exact .inr (.inr (.inl ⟨_, rfl, hfetch.trans (raise_fatal s rfl)⟩))
  · exact .inr (.inr (.inl ⟨_, rfl, hword.trans (raise_fatal s rfl)⟩))
  · rcases exec_cases hu with ⟨e, he, rfl⟩ | hc
    · exact .inr (.inr (.inl ⟨e, he, ht⟩))
    · exact .inr (.inr (.inr ⟨i, u, hi, hc, ht⟩))

/-- An instruction whose event is not fatal has completed. -/
theorem completes_of_nonfatal {i : Instr} {s u : State} {e : Event} (h : exec i s = .next u) (he : e.fatal = false)
    (hemit : u.emitted = .event e :: s.emitted) : Completes i s u := by
  rcases exec_cases h with ⟨e', he', rfl⟩ | hc
  · cases hemit
    exact absurd (he.symm.trans he') nofun
  · exact hc

/-- Settles O12: of the four outcomes of a running machine's step only a fatal event leads to `FAULTED`; a non-fatal
event comes from a completed instruction, which leaves the machine running. -/
theorem fatalTickChangesOnlyRun : Obligations.FatalTickChangesOnlyRun := by
  constructor
  · intro s t hrun h hfault
    rcases step_outcomes h with ⟨hhalted, -⟩ | rfl | hfatal | ⟨i, u, hi, hc, rfl⟩
    · exact absurd hrun hhalted
    · cases hfault
    · exact hfatal
    · have hu : u.run = .running := hc.run_eq.trans hi.running
      rw [finishTick_running hu] at hfault
      cases hu.symm.trans hfault
  · intro s u i e hi h he hemit
    have hu : u.run = .running := (completes_of_nonfatal h he hemit).run_eq.trans hi.running
    rw [hi.step_eq h, finishTick_eq_ite, if_pos hu]

/-- A completed instruction emits at most one event and nothing else (R238). -/
theorem Completes.emitted_eq {i : Instr} {s u : State} (h : Completes i s u) :
    ∃ e : Option Event, u.emitted = (e.map Output.event).toList ++ s.emitted := by
  rcases h.emits with hsame | ⟨e, -, hemit⟩
  · exact ⟨none, hsame⟩
  · exact ⟨some e, hemit⟩

/-- The rest of the tick emits at most one trigger and then at most one frame (R246, R252). -/
theorem finishTick_emitted {s : State} (h : s.run = .running) :
    ∃ (trigger : Bool) (f : Option Frame), s.finishTick.emitted =
      (f.map Output.frame).toList ++ ((if trigger then [Output.soundTrigger] else []) ++ s.emitted) := by
  refine ⟨decide (s.st = 1), if s.dirty then some s.fb else none, ?_⟩
  rw [finishTick_running h]
  simp only [decide_eq_true_eq]
  cases s.dirty <;> rfl

/-- Settles O13: the event is the instruction's or the fatal one that ended the tick; trigger and frame come from the
rest of the tick. -/
theorem tickEmitsEventThenTriggerThenFrame : Obligations.TickEmitsEventThenTriggerThenFrame := by
  intro s t h
  rcases step_outcomes h with ⟨-, rfl⟩ | rfl | ⟨e, -, rfl⟩ | ⟨i, u, hi, hc, rfl⟩
  · exact ⟨none, false, none, rfl⟩
  · exact ⟨none, false, none, rfl⟩
  · exact ⟨some e, false, none, rfl⟩
  · obtain ⟨e, he⟩ := hc.emitted_eq
    obtain ⟨trigger, f, hfinish⟩ := finishTick_emitted (hc.run_eq.trans hi.running)
    exact ⟨e, trigger, f, by rw [hfinish, he]⟩

end Sys2Proof.Machine

/-! ### The inputs of a tick are read by `RND` and the key instructions alone (R112)

An instruction that does not read what two lists of inputs differ in does the same with either list: what it answers
is answered with the other list too, up to the list itself. -/

namespace Sys2Proof.Machine

section
variable (s : State) (inputs : List TickInput)

/-! ### What reads the state does not see the inputs -/

@[simp] theorem present_pc : (s.present inputs).pc = s.pc := rfl
@[simp] theorem present_params : (s.present inputs).params = s.params := rfl
@[simp] theorem present_ea (k : Nat) : (s.present inputs).ea k = s.ea k := rfl
@[simp] theorem present_boundsEvent (kind : AccessKind) (n : Nat) :
    (s.present inputs).boundsEvent kind n = s.boundsEvent kind n := rfl
@[simp] theorem present_storeEvent (n : Nat) : (s.present inputs).storeEvent n = s.storeEvent n := rfl

/-- A draw reads `I`, memory and the coordinates alone. -/
theorem drawRows_present (x y n r : Nat) (q : Plot) :
    drawRows (s.present inputs) x y n r q = drawRows s x y n r q := by
  induction n generalizing r q with
  | zero => rfl
  | succ n ih =>
    simp only [drawRows, ih]
    rfl

@[simp] theorem present_draw (x y : RegIx) (n : Nat) : (s.present inputs).draw x y n = s.draw x y n :=
  drawRows_present s inputs _ _ n 0 _

/-! ### What writes the state leaves the inputs -/

theorem raise_present (e : Event) : (s.present inputs).raise e = (s.raise e).present inputs := by
  unfold State.raise
  split <;> rfl

theorem raiseIfOutside_present (a : Option Nat) :
    (s.present inputs).raiseIfOutside a = (s.raiseIfOutside a).present inputs := by
  cases a with
  | none => rfl
  | some a => exact raise_present s inputs _

theorem push?_present (a : Word) : (s.present inputs).push? a = (s.push? a).map (·.present inputs) := by
  by_cases h : s.sp.val < 16
  · rw [show s.push? a = some _ from dif_pos h]
    exact dif_pos h
  · rw [show s.push? a = none from dif_neg h]
    exact dif_neg h

theorem pop?_present : (s.present inputs).pop? = s.pop?.map fun p => (p.1, p.2.present inputs) := by
  by_cases h : 0 < s.sp.val
  · rw [show s.pop? = some _ from dif_pos h]
    exact dif_pos h
  · rw [show s.pop? = none from dif_neg h]
    exact dif_neg h

theorem bumpIdx_present (x : RegIx) : (s.present inputs).bumpIdx x = (s.bumpIdx x).present inputs := by
  unfold State.bumpIdx
  rw [present_params]
  split <;> rfl

theorem memWrite?_present (a : Nat) (b : Byte) :
    (s.present inputs).memWrite? a b = (s.memWrite? a b).map (·.present inputs) := by
  unfold State.memWrite?
  rw [present_params]
  split
  · split
    · cases s.params.fontStore <;> rfl
    · rfl
  · rfl

end

/-! ### The instructions under other inputs -/

section
variable {s t : State} (inputs : List TickInput)

theorem writeBytes_present {a : Nat} {bs : List Byte} (h : s.writeBytes a bs = .ok t) :
    (s.present inputs).writeBytes a bs = .ok (t.present inputs) := by
  induction bs generalizing s a with
  | nil => cases h; rfl
  | cons b bs ih =>
    rw [State.writeBytes] at h ⊢
    rw [memWrite?_present]
    cases hw : s.memWrite? a b with
    | none => rw [hw] at h; cases h
    | some u => rw [hw] at h; exact ih h

/-- A checked store does the same under other inputs when what comes after it does. -/
theorem storeAtIdx_present {bs : List Byte} {k : State → State} (h : storeAtIdx s bs k = .next t)
    (hk : ∀ u : State, k (u.present inputs) = (k u).present inputs) :
    storeAtIdx (s.present inputs) bs k = .next (t.present inputs) := by
  unfold storeAtIdx
  rcases storeAtIdx_cases s bs k with ⟨e, -, he, h'⟩ | ⟨he, u, hu, h'⟩
  · cases h.symm.trans h'
    simp only [present_storeEvent, he, raise_present]
  · cases h.symm.trans h'
    have hstored : (s.present inputs).writeBytes (s.ea 0) bs = _ := writeBytes_present inputs hu
    simp only [present_storeEvent, present_ea, he, hstored, hk]

theorem execCall_present {nnn : Addr12} (h : execCall nnn s = .next t) :
    execCall nnn (s.present inputs) = .next (t.present inputs) := by
  unfold execCall at h ⊢
  rw [present_pc, push?_present, raise_present]
  cases hp : s.push? (s.pc + 2) with
  | none => rw [hp] at h; cases h; rfl
  | some u => rw [hp] at h; cases h; rfl

theorem execRet_present (h : execRet s = .next t) : execRet (s.present inputs) = .next (t.present inputs) := by
  unfold execRet at h ⊢
  rw [present_pc, pop?_present, raise_present]
  cases hp : s.pop? with
  | none => rw [hp] at h; cases h; rfl
  | some p => rw [hp] at h; cases h; rfl

theorem execDrw_present {x y : RegIx} {n : Fin 16} (h : execDrw x y n s = .next t) :
    execDrw x y n (s.present inputs) = .next (t.present inputs) := by
  cases h
  simp only [execDrw, present_draw, raiseIfOutside_present]
  rfl

theorem execLdVxMem_present {x : RegIx} (h : execLdVxMem x s = .next t) :
    execLdVxMem x (s.present inputs) = .next (t.present inputs) := by
  unfold execLdVxMem at h ⊢
  rcases boundsEvent_cases s .load (x.val + 1) with ⟨hfits, he⟩ | ⟨-, he⟩
  · have hread : s.readBytes (s.ea 0) (x.val + 1) = _ := readBytes_eq hfits
    have hread' : (s.present inputs).readBytes (s.ea 0) (x.val + 1) = _ := readBytes_eq hfits
    simp only [he, hread] at h
    simp only [present_boundsEvent, present_ea, he, hread']
    cases h
    exact congrArg (fun u : State => Host.Outcome.next u.advance) (bumpIdx_present (s.setV _) inputs x)
  · simp only [he] at h
    simp only [present_boundsEvent, he]
    cases h
    exact congrArg Host.Outcome.next (raise_present s inputs _)

/-- `SKP`, `SKNP` and `LD VX,K` read the key word (R213), and of the inputs nothing else. -/
theorem keyDown_present (x : RegIx) (h : (s.present inputs).tickInput.key = s.tickInput.key) :
    (s.present inputs).keyDown x = s.keyDown x := by
  unfold State.keyDown
  rw [h]
  rfl

theorem takeKey_present (x : RegIx) (h : (s.present inputs).tickInput.key = s.tickInput.key) :
    (s.present inputs).takeKey x = (s.takeKey x).present inputs := by
  unfold State.takeKey
  rw [h]
  split <;> rfl

/-- Under other inputs an instruction does the same, if these agree on what it reads of them. -/
theorem exec_present {i : Instr} (h : exec i s = .next t)
    (hrnd : (s.present inputs).tickInput.rnd = s.tickInput.rnd ∨ ∀ x nn, i ≠ .rnd x nn)
    (hkey : (s.present inputs).tickInput.key = s.tickInput.key ∨ i.group ≠ .extKey) :
    exec i (s.present inputs) = .next (t.present inputs) := by
  cases i
  case rnd x nn =>
    have hbyte := hrnd.resolve_right fun hne => hne x nn rfl
    cases h
    simp only [exec, execRnd, hbyte]
    rfl
  case skp x | sknp x =>
    have hdown := keyDown_present inputs x (hkey.resolve_right fun hne => hne rfl)
    cases h
    simp only [exec, execSkp, execSknp, hdown]
    rfl
  case ldVxK x =>
    cases h
    exact congrArg Host.Outcome.next (takeKey_present inputs x (hkey.resolve_right fun hne => hne rfl))
  case call nnn => exact execCall_present inputs h
  case ret => exact execRet_present inputs h
  case drw x y n => exact execDrw_present inputs h
  case ldB x => exact storeAtIdx_present inputs h fun _ => rfl
  case ldMemVx x =>
    exact storeAtIdx_present inputs h fun u => congrArg State.advance (bumpIdx_present u inputs x)
  case ldVxMem x => exact execLdVxMem_present inputs h
  all_goals cases h; rfl

end

/-- No instruction changes the inputs: the tick moves to the next ones after it. -/
theorem exec_inputs {i : Instr} {s t : State} (h : exec i s = .next t) : t.inputs = s.inputs := by
  rcases exec_cases h with ⟨e, -, rfl⟩ | hc
  · rfl
  · rw [hc.kept]

/-- Settles O34: the second run is the first one under other inputs, and the first leaves its own inputs in place. -/
theorem inputsReadOnlyByTheirInstructions : Obligations.InputsReadOnlyByTheirInstructions := by
  intro i s a b rest hrnd hkey
  obtain ⟨u, hu⟩ := exec_next i (s.present (a :: rest))
  have hinputs : u.present (a :: rest) = u := by
    unfold State.present
    rw [← show u.inputs = a :: rest from exec_inputs hu]
  exact ⟨u, by rw [hinputs, hu], exec_present (s := s.present (a :: rest)) (b :: rest) hu (hrnd.imp_left Eq.symm)
    (hkey.imp_left Eq.symm)⟩

end Sys2Proof.Machine

/-! ### Control transfer: jumps, calls, returns and skips (R121 to R130) -/

namespace Sys2Proof.Machine

/-! ### The program counter -/

theorem zextAddr_toNat (nnn : Addr12) : (zextAddr nnn).toNat = nnn.toNat :=
  BitVec.toNat_setWidth_of_le (by decide)

theorem setPc_onlyPc (s : State) (a : Word) : OnlyPc s (s.setPc a) := ⟨rfl, fun _ => rfl⟩

theorem pcPlus_of_pc_eq {s t : State} {k : Nat} (h : t.pc = s.pc + BitVec.ofNat 16 k) : PcPlus k s t := by
  rw [PcPlus, h, BitVec.toNat_add, BitVec.toNat_ofNat, Nat.add_mod_mod]

/-! ### The call stack -/

/-- Below depth 16 a `CALL` pushes its return address and jumps (R122). -/
theorem call_pushes (nnn : Addr12) {s : State} (h : s.sp.val < 16) :
    ∃ t, exec (.call nnn) s = .next t ∧ t = { s with pc := zextAddr nnn, sp := t.sp, stk := t.stk } ∧
      t.sp.val = s.sp.val + 1 ∧
      ∀ k : Fin 16, t.stk.get k = if k.val = s.sp.val then s.pc + 2 else s.stk.get k := by
  rcases push?_cases s (s.pc + 2) with ⟨-, u, hu, hframe, hsp, hslot⟩ | ⟨hfull, -⟩
  · exact ⟨u.setPc (zextAddr nnn), by simp only [exec, execCall, hu], by rw [hframe]; rfl, hsp, hslot⟩
  · omega

/-- At depth 16 a `CALL` only reports (R123). -/
theorem call_reports (nnn : Addr12) {s : State} (h : s.sp.val = 16) :
    exec (.call nnn) s = .next (s.reporting (.stackOverflow s.pc (encode (.call nnn)))) := by
  rcases push?_cases s (s.pc + 2) with ⟨hfree, -⟩ | ⟨-, hu⟩
  · omega
  · simp only [exec, execCall, hu]
    exact congrArg Host.Outcome.next (raise_nonfatal s rfl)

/-- Above depth 0 a `RET` jumps to the address on top of the stack, and the slots stay (R124, R16). -/
theorem ret_pops {s : State} (h : 0 < s.sp.val) :
    ∃ t, exec .ret s = .next t ∧ t = { s with pc := t.pc, sp := t.sp } ∧ t.sp.val + 1 = s.sp.val ∧
      ∀ k : Fin 16, k.val + 1 = s.sp.val → t.pc = s.stk.get k := by
  rcases pop?_cases s with ⟨-, a, u, hu, hframe, hsp, htop⟩ | ⟨hempty, -⟩
  · refine ⟨u.setPc a, by simp only [exec, execRet, hu], by rw [hframe]; rfl, ?_, htop⟩
    rw [setPc_sp]
    omega
  · omega

/-- At depth 0 a `RET` only reports (R125). -/
theorem ret_reports {s : State} (h : s.sp.val = 0) :
    exec .ret s = .next (s.reporting (.stackUnderflow s.pc (encode .ret))) := by
  rcases pop?_cases s with ⟨hpos, -⟩ | ⟨-, hu⟩
  · omega
  · simp only [exec, execRet, hu]
    exact congrArg Host.Outcome.next (raise_nonfatal s rfl)

/-- A return undoes the call before it, up to the address it goes to (R130). -/
theorem ret_after_call {nnn : Addr12} {s u : State} (h : s.sp.val < 16) (hcall : exec (.call nnn) s = .next u) :
    ∃ t, exec .ret u = .next t ∧ PcPlus 2 s t ∧ t.sp = s.sp := by
  obtain ⟨u', hu', -, hpush, hslot⟩ := call_pushes nnn h
  cases hcall.symm.trans hu'
  obtain ⟨t, ht, -, hpop, htop⟩ := ret_pops (s := u) (by omega)
  have hpc : t.pc = s.pc + 2 := by rw [htop ⟨s.sp.val, h⟩ hpush.symm, hslot, if_pos rfl]
  exact ⟨t, ht, pcPlus_of_pc_eq hpc, Fin.ext (by omega)⟩

/-- Nested calls succeed as long as the stack has a slot for each (R130). -/
theorem execCalls_sp {calls : List Addr12} {s : State} (h : s.sp.val + calls.length ≤ 16) :
    ∃ t, execCalls calls s = .next t ∧ t.sp.val = s.sp.val + calls.length := by
  induction calls generalizing s with
  | nil => exact ⟨s, rfl, rfl⟩
  | cons nnn rest ih =>
    rw [List.length_cons] at h ⊢
    obtain ⟨u, hu, -, hsp, -⟩ := call_pushes nnn (s := s) (by omega)
    obtain ⟨t, ht, hdepth⟩ := ih (s := u) (by omega)
    exact ⟨t, by simp only [execCalls, hu, ht], by omega⟩

/-- Settles O20: it is `call_pushes`, with the slot that is written and the others told apart. -/
theorem callPushesTheReturnAddress : Obligations.CallPushesTheReturnAddress := by
  intro nnn s h
  obtain ⟨t, ht, hframe, hsp, hslot⟩ := call_pushes nnn h
  have hpc : t.pc = zextAddr nnn := by rw [hframe]
  refine ⟨t, ht, by rw [hpc, zextAddr_toNat], hsp, fun k hk => ?_, fun k hk => ?_, by rw [hpc]; exact hframe,
    exec_keeps_memory ht fun ⟨_, hst⟩ => hst.elim nofun nofun⟩
  · rw [hslot, if_pos hk]
    exact BitVec.toNat_add s.pc 2
  · rw [hslot, if_neg hk]

/-- Settles O22: it is `ret_pops`, and a return stores nothing. -/
theorem retPopsIntoPc : Obligations.RetPopsIntoPc := by
  intro s h
  obtain ⟨t, ht, hframe, hsp, htop⟩ := ret_pops h
  exact ⟨t, ht, hsp, htop, hframe, exec_keeps_memory ht fun ⟨_, hst⟩ => hst.elim nofun nofun⟩

/-- Settles O23: `ret_after_call`, and `execCalls_sp` from depth 0. -/
theorem callThenRetIsAnIdentityOnPc : Obligations.CallThenRetIsAnIdentityOnPc := by
  refine ⟨fun _ _ _ => ret_after_call, fun calls s hempty hlen => ?_⟩
  obtain ⟨t, ht, hsp⟩ := execCalls_sp (calls := calls) (s := s) (by omega)
  exact ⟨t, ht, by omega⟩

/-- Settles O21: the event carries the word of the instruction, which is the word it was decoded from. -/
theorem stackMisuseOnlyReports : Obligations.StackMisuseOnlyReports := by
  refine fun p w s => ⟨fun nnn hw hfull => ?_, fun hw hempty => ?_⟩
  · rw [call_reports nnn hfull, (encodeInvertsDecode p w _ hw).1]
  · rw [ret_reports hempty, (encodeInvertsDecode p w _ hw).1]

/-! ### Jump and skips -/

/-- Settles O19: `JP` is a write to `PC` alone. -/
theorem jpSetsPcAlone : Obligations.JpSetsPcAlone := fun nnn s =>
  ⟨s.setPc (zextAddr nnn), rfl, zextAddr_toNat nnn, setPc_onlyPc s _⟩

theorem skipIf_onlyPc (s : State) (taken : Bool) : OnlyPc s (s.skipIf taken) := setPc_onlyPc s _

theorem skipIf_pcPlus (s : State) (taken : Bool) : PcPlus (if taken then 4 else 2) s (s.skipIf taken) := by
  cases taken with
  | true => exact pcPlus_of_pc_eq (k := 4) rfl
  | false => exact pcPlus_of_pc_eq (k := 2) rfl

/-- A skip on equality (R126, R128). -/
theorem skipIf_beq_pcPlus (s : State) (a b : Byte) :
    PcPlus (if a.toNat = b.toNat then 4 else 2) s (s.skipIf (a == b)) := by
  simpa only [beq_iff_eq, BitVec.toNat_inj] using skipIf_pcPlus s (a == b)

/-- A skip on inequality (R127, R129). -/
theorem skipIf_bne_pcPlus (s : State) (a b : Byte) :
    PcPlus (if a.toNat = b.toNat then 2 else 4) s (s.skipIf (a != b)) := by
  simpa only [bne_iff_ne, ite_not, BitVec.toNat_inj] using skipIf_pcPlus s (a != b)

/-- Settles O24: the two skips compare `V[X]` with the immediate. -/
theorem skipsOnAnImmediate : Obligations.SkipsOnAnImmediate := fun x nn s =>
  ⟨⟨_, rfl, skipIf_onlyPc s _, skipIf_beq_pcPlus s (s.reg x) nn⟩,
    ⟨_, rfl, skipIf_onlyPc s _, skipIf_bne_pcPlus s (s.reg x) nn⟩⟩

/-- Settles O25: the two skips compare `V[X]` with `V[Y]`, and their meaning has no use for the low nibble. -/
theorem skipsOnTwoRegisters : Obligations.SkipsOnTwoRegisters := fun x y _ s =>
  ⟨⟨_, rfl, skipIf_onlyPc s _, skipIf_beq_pcPlus s (s.reg x) (s.reg y)⟩,
    ⟨_, rfl, skipIf_onlyPc s _, skipIf_bne_pcPlus s (s.reg x) (s.reg y)⟩⟩

end Sys2Proof.Machine

/-! ### Register, arithmetic, logic, shift and random (R141 to R158) -/

namespace Sys2Proof.Machine

/-! ### An instruction that writes registers and goes on to the next word (R140) -/

theorem advance_pcPlus {s u : State} (h : u.pc = s.pc) : PcPlus 2 s u.advance :=
  pcPlus_of_pc_eq (congrArg (· + 2) h)

/-- The last two steps of an instruction that writes one register and no flag (R140). -/
theorem setReg_advance_effect (s : State) (x : RegIx) (b : Byte) :
    (s.setReg x b).advance.reg x = b ∧ PcPlus 2 s (s.setReg x b).advance ∧
      OnlyRegsPc [x] s (s.setReg x b).advance :=
  ⟨setReg_reg_same s x b, advance_pcPlus rfl, rfl,
    fun _ hk => setReg_reg_ne s b (List.ne_of_not_mem_cons hk), fun _ => rfl⟩

/-- The last steps of an instruction that writes VF and then its result: the result stands in `V[X]` for every X, the
flag in VF unless X = 0xF (R140, R141). -/
theorem setFlagAndReg_advance_effect (s : State) (x : RegIx) (f : Bool) (b : Byte) :
    (s.setFlagAndReg x f b).advance.reg x = b ∧
      (x ≠ vf → (s.setFlagAndReg x f b).advance.reg vf = flagByte f) ∧
      PcPlus 2 s (s.setFlagAndReg x f b).advance ∧ OnlyRegsPc [x, vf] s (s.setFlagAndReg x f b).advance := by
  refine ⟨setReg_reg_same _ x b, fun hx => ?_, advance_pcPlus rfl, rfl, fun k hk => ?_, fun _ => rfl⟩
  · exact (setFlagAndReg_reg s x vf f b).trans (by rw [if_neg hx.symm, if_pos rfl])
  · obtain ⟨hkx, hkvf⟩ : k ≠ x ∧ k ≠ vf := by simpa using hk
    exact (setFlagAndReg_reg s x k f b).trans (by rw [if_neg hkx, if_neg hkvf])

/-- `setFlagAndReg_advance_effect` for an instruction whose result and flag are the numbers `n` and `m`. -/
theorem exec_flagAndReg {i : Instr} {s : State} {x : RegIx} {f : Bool} {b : Byte} {n m : Nat}
    (hexec : exec i s = .next (s.setFlagAndReg x f b).advance) (hresult : b.toNat = n)
    (hflag : (flagByte f).toNat = m) :
    ∃ t, exec i s = .next t ∧ (t.reg x).toNat = n ∧ (x ≠ vf → (t.reg vf).toNat = m) ∧ PcPlus 2 s t ∧
      OnlyRegsPc [x, vf] s t := by
  obtain ⟨hreg, hvf, hpc, hframe⟩ := setFlagAndReg_advance_effect s x f b
  exact ⟨_, hexec, by rw [hreg, hresult], fun hx => by rw [hvf hx, hflag], hpc, hframe⟩

/-! ### The flags and the results as numbers (R148 to R153, R158) -/

theorem carryOut_flag (a b : Byte) :
    (flagByte (carryOut a b)).toNat = if a.toNat + b.toNat > 255 then 1 else 0 := by
  simp only [flagByte_toNat, carryOut, decide_eq_true_eq, gt_iff_lt]

theorem noBorrow_flag (a b : Byte) :
    (flagByte (noBorrow a b)).toNat = if a.toNat ≥ b.toNat then 1 else 0 := by
  simp only [flagByte_toNat, noBorrow, decide_eq_true_eq, ge_iff_le]

theorem shiftedOutRight_flag (a : Byte) : (flagByte (shiftedOutRight a)).toNat = a.toNat % 2 := by
  simp only [flagByte_toNat, shiftedOutRight, BitVec.getLsbD, Nat.testBit_zero, decide_eq_true_eq]
  split <;> omega

theorem shiftedOutLeft_flag (a : Byte) : (flagByte (shiftedOutLeft a)).toNat = a.toNat / 128 := by
  have hlt := a.isLt
  simp only [flagByte_toNat, shiftedOutLeft, BitVec.getLsbD, Nat.testBit_eq_decide_div_mod_eq, decide_eq_true_eq]
  split <;> omega

theorem sub_toNat (a b : Byte) : (a - b).toNat = (a.toNat + 256 - b.toNat) % 256 := by
  have hlt := b.isLt
  rw [BitVec.toNat_sub]
  omega

theorem shiftRight_one_toNat (a : Byte) : (a >>> 1).toNat = a.toNat / 2 := by
  rw [BitVec.toNat_ushiftRight, Nat.shiftRight_eq_div_pow, Nat.pow_one]

theorem shiftLeft_one_toNat (a : Byte) : (a <<< 1).toNat = a.toNat * 2 % 256 := by
  rw [BitVec.toNat_shiftLeft, Nat.shiftLeft_eq, Nat.pow_one]

/-- `SHIFT_SOURCE` names the register the shifts read (R152). -/
theorem shiftOperand_eq {s : State} {x y : RegIx} {a : Byte}
    (h : s.params.shiftSource = .vx ∧ a = s.reg x ∨ s.params.shiftSource = .vy ∧ a = s.reg y) :
    s.shiftOperand x y = a := by
  rcases h with ⟨hsrc, rfl⟩ | ⟨hsrc, rfl⟩ <;> rw [State.shiftOperand, hsrc]

/-! ### The instructions -/

/-- Settles O27: each is one register write, by `setReg_advance_effect`. -/
theorem loadsAndAddImmediateWriteOneRegister : Obligations.LoadsAndAddImmediateWriteOneRegister := by
  refine fun x y nn s => ⟨⟨_, rfl, setReg_advance_effect s x nn⟩, ⟨_, rfl, setReg_advance_effect s x (s.reg y)⟩, ?_⟩
  obtain ⟨hreg, hpc, hframe⟩ := setReg_advance_effect s x (s.reg x + nn)
  exact ⟨_, rfl, by rw [hreg, BitVec.toNat_add], hpc, hframe⟩

/-- Settles O28: each is one register write, and the operations on bytes act bit by bit. -/
theorem bitwiseOperationsActBitByBit : Obligations.BitwiseOperationsActBitByBit := by
  refine fun x y s => ⟨?or, ?and, ?xor⟩
  case or =>
    obtain ⟨hreg, hpc, hframe⟩ := setReg_advance_effect s x (s.reg x ||| s.reg y)
    exact ⟨_, rfl, hpc, hframe, fun k _ => by rw [hreg, BitVec.getLsbD_or]⟩
  case and =>
    obtain ⟨hreg, hpc, hframe⟩ := setReg_advance_effect s x (s.reg x &&& s.reg y)
    exact ⟨_, rfl, hpc, hframe, fun k _ => by rw [hreg, BitVec.getLsbD_and]⟩
  case xor =>
    obtain ⟨hreg, hpc, hframe⟩ := setReg_advance_effect s x (s.reg x ^^^ s.reg y)
    exact ⟨_, rfl, hpc, hframe, fun k _ => by rw [hreg, BitVec.getLsbD_xor]⟩

/-- Settles O32: `RND` is one register write, of the tick's byte under the mask. -/
theorem randomByteIsMasked : Obligations.RandomByteIsMasked := by
  intro x nn s
  obtain ⟨hreg, hpc, hframe⟩ := setReg_advance_effect s x (s.tickInput.rnd &&& nn)
  exact ⟨_, rfl, fun k _ => by rw [hreg, BitVec.getLsbD_and], hpc, hframe⟩

/-- Settles O29: the sum of the old values, and `carryOut_flag`. -/
theorem addRegistersSetsCarry : Obligations.AddRegistersSetsCarry := fun _ _ _ =>
  exec_flagAndReg rfl (BitVec.toNat_add _ _) (carryOut_flag _ _)

/-- Settles O30: `SUBN` is `SUB` with the operands exchanged, in the difference and in the flag. -/
theorem subtractionsSetNoBorrow : Obligations.SubtractionsSetNoBorrow := fun x y s =>
  ⟨exec_flagAndReg rfl (sub_toNat (s.reg x) (s.reg y)) (noBorrow_flag (s.reg x) (s.reg y)),
    exec_flagAndReg rfl (sub_toNat (s.reg y) (s.reg x)) (noBorrow_flag (s.reg y) (s.reg x))⟩

/-- Settles O31: half and double of the operand, and the bit that each shift moves out of it. -/
theorem shiftsByOnePlace : Obligations.ShiftsByOnePlace := by
  intro x y s a hsource
  obtain rfl := shiftOperand_eq hsource
  exact ⟨exec_flagAndReg rfl (shiftRight_one_toNat _) (shiftedOutRight_flag _),
    exec_flagAndReg rfl (shiftLeft_one_toNat _) (shiftedOutLeft_flag _)⟩

end Sys2Proof.Machine

/-! ### Index register and the store of the decimal digits (R171 to R174) -/

namespace Sys2Proof.Machine

/-! ### Writes to `I` (R171, R172) -/

theorem zextByte_toNat (b : Byte) : (zextByte b).toNat = b.toNat :=
  BitVec.toNat_setWidth_of_le (by decide)

/-- The last two steps of an instruction that writes `I` alone and goes on to the next word (R140). -/
theorem setIdx_advance_effect (s : State) (a : Word) :
    PcPlus 2 s (s.setIdx a).advance ∧ OnlyIdxPc s (s.setIdx a).advance :=
  ⟨advance_pcPlus rfl, rfl, fun _ => rfl⟩

/-- Settles O35: each is one write to `I`, of the zero-extended operand or of the 16-bit sum. -/
theorem indexRegisterLoadAndAdd : Obligations.IndexRegisterLoadAndAdd := by
  refine fun nnn x s => ⟨⟨_, rfl, zextAddr_toNat nnn, setIdx_advance_effect s _⟩,
    ⟨_, rfl, ?_, setIdx_advance_effect s (s.idx + zextByte (s.reg x))⟩⟩
  show (s.idx + zextByte (s.reg x)).toNat = _
  rw [BitVec.toNat_add, zextByte_toNat]

/-! ### A checked store that its checks stop (R174, R208) -/

/-- The address of check (a) is the lowest of `I`..`I+n` that lies outside the extent. -/
theorem firstOutside_lowest {s : State} {n : Nat} (h : s.idx.toNat + n > 0xFFF) :
    s.idx.toNat ≤ s.firstOutside ∧ s.firstOutside ≤ s.idx.toNat + n ∧ s.firstOutside > 0xFFF ∧
      ∀ b, s.idx.toNat ≤ b → b < s.firstOutside → b ≤ 0xFFF := by
  unfold State.firstOutside memBytes
  refine ⟨?_, ?_, ?_, fun b hlo hhi => ?_⟩ <;> omega

/-- An event of the checks is all that the instruction does. -/
theorem storeAtIdx_halts {s : State} {bs : List Byte} {e : Event} (k : State → State)
    (he : s.storeEvent bs.length = some e) (hfatal : e.fatal = true) : storeAtIdx s bs k = .next (s.haltedBy e) := by
  simp only [storeAtIdx, he]
  exact congrArg Host.Outcome.next (raise_fatal s hfatal)

/-- Check (a): an address of the block exceeds 0xFFF. -/
theorem storeAtIdx_outside {s : State} {bs : List Byte} (k : State → State)
    (hout : memBytes < s.idx.toNat + bs.length) :
    storeAtIdx s bs k = .next (s.haltedBy (.memoryAccessFault .store s.firstOutside s.pc)) := by
  rcases storeEvent_cases s bs.length with ⟨hfits, -⟩ | ⟨-, he⟩ | ⟨hfits, -⟩
  · omega
  · exact storeAtIdx_halts k he rfl
  · omega

/-- Check (b), once (a) has passed: the stored bytes begin in the font region, under `FONT_STORE = fault`. -/
theorem storeAtIdx_inFont {s : State} {bs : List Byte} (k : State → State)
    (hfits : s.idx.toNat + bs.length ≤ memBytes) (hlow : s.idx.toNat < fontBytes)
    (hfault : s.params.fontStore = .fault) :
    storeAtIdx s bs k = .next (s.haltedBy (.memoryAccessFault .fontStore s.idx.toNat s.pc)) := by
  rcases storeEvent_cases s bs.length with ⟨-, hfont, -⟩ | ⟨hout, -⟩ | ⟨-, -, -, he⟩
  · exact absurd hfault (hfont.resolve_left (by omega))
  · omega
  · exact storeAtIdx_halts k he rfl

/-- Settles O37: the digits are a block of three bytes, so these are the two checks of a checked store. -/
theorem bcdAddressChecks : Obligations.BcdAddressChecks := by
  refine fun x s => ⟨fun hout => ?_, fun hfits hlow hfault => ?_⟩
  · have hblock : memBytes < s.idx.toNat + (bcdDigits (s.reg x)).length := by
      rw [bcdDigits_length, memBytes]
      omega
    obtain ⟨hlo, hhi, hfirst, hlowest⟩ := firstOutside_lowest hout
    exact ⟨s.firstOutside, hlo, hhi, hfirst, hlowest, storeAtIdx_outside State.advance hblock⟩
  · have hblock : s.idx.toNat + (bcdDigits (s.reg x)).length ≤ memBytes := by
      rw [bcdDigits_length, memBytes]
      omega
    exact storeAtIdx_inFont State.advance hblock (Nat.lt_succ_of_le hlow) hfault

/-! ### A checked store that passes its checks (R173, R206) -/

/-- Before its last steps `k` the instruction has changed memory alone, to the bytes of `byteAfterStore`. -/
theorem storeAtIdx_stores {s : State} {bs : List Byte} (k : State → State) (hs : s.MemCanonical)
    (hfits : s.idx.toNat + bs.length ≤ memBytes) (hfont : fontBytes ≤ s.idx.toNat ∨ s.params.fontStore ≠ .fault) :
    ∃ u, storeAtIdx s bs k = .next (k u) ∧ u = s.setMem u.mem ∧ ∀ a, u.byteAt a = s.byteAfterStore bs a := by
  have hpass := storeEvent_eq_none hfits hfont
  rcases storeAtIdx_cases s bs k with ⟨e, -, he, -⟩ | ⟨-, u, hu, h⟩
  · cases hpass.symm.trans he
  · exact ⟨u, h, (checkedStore_spec hpass hu).1, writeBytes_byteAt hs hfits hu⟩

/-- Under `ignore` no byte of the font region is writable (R47). -/
theorem not_writable_of_ignore {s : State} {a : Nat} (ha : a < fontBytes) (h : s.params.fontStore = .ignore) :
    ¬ s.writable a := by
  rintro (hge | hallow)
  · omega
  · cases h.symm.trans hallow

/-- The `k`-th digit counts the powers of ten `10 ^ (2 - k)`. -/
theorem bcdDigits_getElem_toNat (b : Byte) {k : Nat} (hk : k < (bcdDigits b).length) :
    (bcdDigits b)[k].toNat = b.toNat / 10 ^ (2 - k) % 10 := by
  have hb := b.isLt
  match k, hk with
  | 0, _ => show b.toNat / 100 % 2 ^ 8 = b.toNat / 100 % 10; omega
  | 1, _ => show b.toNat / 10 % 10 % 2 ^ 8 = b.toNat / 10 % 10; omega
  | 2, _ => show b.toNat % 10 % 2 ^ 8 = b.toNat / 1 % 10; omega

/-- Settles O36: `storeAtIdx_stores` with the three digits, whose bytes land where they are writable. -/
theorem bcdStoresThreeDigits : Obligations.BcdStoresThreeDigits := by
  intro x s hs hin hfont
  have hfits : s.idx.toNat + (bcdDigits (s.reg x)).length ≤ memBytes := by
    rw [bcdDigits_length, memBytes]
    omega
  obtain ⟨u, hexec, hset, hbyte⟩ := storeAtIdx_stores State.advance hs hfits hfont
  have hmiss : ∀ a, (a < s.idx.toNat ∨ s.idx.toNat + 3 ≤ a ∨ ¬ s.writable a) → u.advance.byteAt a = s.byteAt a :=
    fun a ha => (hbyte a).trans (byteAfterStore_of_miss ha)
  refine ⟨u.advance, hexec, advance_pcPlus (by rw [hset]; rfl), by rw [hset]; rfl, fun a ha => ?_,
    fun k _ hlow hignore => ?_, fun k hk hw => ?_⟩
  · exact hmiss a (ha.imp_right .inl)
  · exact hmiss _ (.inr (.inr (not_writable_of_ignore hlow hignore)))
  · have hlt : k < (bcdDigits (s.reg x)).length := Nat.lt_succ_of_le hk
    have hdigit : u.advance.byteAt (s.idx.toNat + k) = (bcdDigits (s.reg x))[k] :=
      (hbyte _).trans (byteAfterStore_of_hit hlt hw)
    rw [hdigit, bcdDigits_getElem_toNat]

end Sys2Proof.Machine

/-! ### Display: clearing the screen and drawing a sprite (R181 to R189) -/

namespace Sys2Proof.Machine

/-- Settles O40: `CLS` loads the blank frame. -/
theorem clsClearsTheScreen : Obligations.ClsClearsTheScreen := fun s =>
  ⟨((s.setFb blankFrame).setDirty true).advance, rfl, pixel_blankFrame, rfl, advance_pcPlus rfl, rfl, fun _ => rfl⟩

/-! ### The sprite of the statements and the row loop -/

/-- The row loop of a whole draw hits the pixels of `plotsAt`. -/
theorem rowsHit_iff_plotsAt (s : State) (x y : RegIx) (n : Nat) (px : Fin 64) (py : Fin 32) :
    RowsHit s (s.reg x).toNat (s.reg y).toNat n 0 px py ↔ s.plotsAt x y n px py := by
  simp only [RowsHit, RowHits, Nat.zero_add]
  constructor
  · rintro ⟨r, hr, hin, c, hc, hbit, hx, hy⟩
    exact ⟨r, c, ⟨hr, hin, hc, hbit⟩, hx, hy⟩
  · rintro ⟨r, c, ⟨hr, hin, hc, hbit⟩, hx, hy⟩
    exact ⟨r, hr, hin, c, hc, hbit, hx, hy⟩

/-- Every 1 bit of a sprite lands on some pixel (R185). -/
theorem exists_plotsAt_iff (s : State) (x y : RegIx) (n : Nat) :
    (∃ px py, s.plotsAt x y n px py) ↔ ∃ r c, s.spriteBit n r c := by
  constructor
  · rintro ⟨_, _, r, c, hbit, _⟩
    exact ⟨r, c, hbit⟩
  · rintro ⟨r, c, hbit⟩
    exact ⟨wrapX _, wrapY _, r, c, hbit, rfl, rfl⟩

/-- What `DRW` reads besides the framebuffer is its coordinates, `I` and memory. -/
theorem plotsAt_congr {s u : State} {x y : RegIx} (hx : u.reg x = s.reg x) (hy : u.reg y = s.reg y)
    (hidx : u.idx = s.idx) (hmem : SameMemory s u) (n : Nat) (px : Fin 64) (py : Fin 32) :
    u.plotsAt x y n px py ↔ s.plotsAt x y n px py := by
  simp only [State.plotsAt, State.spriteBit, hx, hy, hidx, hmem _]

theorem draw_step (s : State) (x y : RegIx) (n : Fin 16) :
    PlotStep (s.plotsAt x y n.val) { fb := s.fb, coll := false, plotted := false } (s.draw x y n.val).1 := by
  have hhits : RowsHit s (s.reg x).toNat (s.reg y).toNat n.val 0 = s.plotsAt x y n.val :=
    funext fun px => funext fun py => propext (rowsHit_iff_plotsAt s x y n.val px py)
  rw [← hhits]
  exact drawRows_step s _ _ n.val 0 _ (by omega)

/-! ### What `DRW` does -/

theorem raiseIfOutside_frame (s : State) (a : Option Nat) :
    s.raiseIfOutside a = { s with emitted := (s.raiseIfOutside a).emitted } := by
  cases a with
  | none => rfl
  | some a => exact (raise_nonfatal s rfl).trans (by rw [State.raiseIfOutside, raise_emitted])

theorem flagByte_eq_one_iff (f : Bool) : flagByte f = 1 ↔ f = true := by cases f <;> decide

theorem flagByte_zero_or_one (f : Bool) : flagByte f = 0 ∨ flagByte f = 1 := by cases f <;> decide

/-- Everything `DRW VX,VY,N` does between `s` and `t`, in terms of the pixels its sprite lands on (R182 to R188). -/
structure Draws (x y : RegIx) (n : Fin 16) (s t : State) : Prop where
  hit : ∀ px py, s.plotsAt x y n.val px py → Frame.pixel t.fb px py = !Frame.pixel s.fb px py
  miss : ∀ px py, ¬ s.plotsAt x y n.val px py → Frame.pixel t.fb px py = Frame.pixel s.fb px py
  collision : t.reg vf = 1 ↔ ∃ px py, s.plotsAt x y n.val px py ∧ Frame.pixel s.fb px py = true
  flag : t.reg vf = 0 ∨ t.reg vf = 1
  dirty : t.dirty = true ↔ s.dirty = true ∨ ∃ r c, s.spriteBit n.val r c
  reports : t.emitted = (s.raiseIfOutside (s.draw x y n.val).2).emitted
  regs : ∀ r : RegIx, r ≠ vf → t.reg r = s.reg r
  kept : t = { s with v := t.v, fb := t.fb, dirty := t.dirty, emitted := t.emitted, pc := s.pc + 2 }

theorem exec_drw_draws (x y : RegIx) (n : Fin 16) (s : State) :
    ∃ t, exec (.drw x y n) s = .next t ∧ Draws x y n s t := by
  obtain ⟨hhit, hmiss, hcoll, hplotted⟩ := draw_step s x y n
  have hframe := raiseIfOutside_frame s (s.draw x y n.val).2
  refine ⟨_, rfl, hhit, hmiss, ?collision, ?flag, ?dirty, rfl, fun r hr => ?regs, ?kept⟩
  case collision =>
    rw [advance_eq, setPc_reg, setDirty_reg, setReg_reg_same, flagByte_eq_one_iff, hcoll]
    simp only [Bool.false_eq_true, false_or]
  case flag =>
    rw [advance_eq, setPc_reg, setDirty_reg, setReg_reg_same]
    exact flagByte_zero_or_one _
  case dirty =>
    rw [advance_eq, setPc_dirty, setDirty_dirty, Bool.or_eq_true, hplotted, exists_plotsAt_iff]
    simp only [Bool.false_eq_true, false_or]
  case regs =>
    rw [advance_eq, setPc_reg, setDirty_reg, setReg_reg_ne _ _ hr, setFb_reg, hframe]
    rfl
  case kept =>
    rw [hframe]
    rfl

/-- The instruction has one result, so the effect is that of the state it answers. -/
theorem draws_of_exec {x y : RegIx} {n : Fin 16} {s t : State} (h : exec (.drw x y n) s = .next t) :
    Draws x y n s t := by
  obtain ⟨t', ht', hdraws⟩ := exec_drw_draws x y n s
  cases h.symm.trans ht'
  exact hdraws

section
variable {x y : RegIx} {n : Fin 16} {s t : State}

theorem Draws.pixel_ne_iff (h : Draws x y n s t) (px : Fin 64) (py : Fin 32) :
    Frame.pixel t.fb px py ≠ Frame.pixel s.fb px py ↔ s.plotsAt x y n.val px py := by
  by_cases hp : s.plotsAt x y n.val px py
  · simp only [h.hit px py hp, hp, ne_eq, Bool.not_eq_self, not_false_eq_true]
  · simp only [h.miss px py hp, hp, ne_eq, not_true_eq_false]

theorem Draws.sameMemory (h : Draws x y n s t) : SameMemory s t := fun a => by rw [h.kept]; rfl

theorem Draws.pc (h : Draws x y n s t) : t.pc = s.pc + 2 := by rw [h.kept]

end

/-- Settles O41: the pixels that change are those that are hit. -/
theorem drawInvertsTheSpritePixels : Obligations.DrawInvertsTheSpritePixels := fun x y n s =>
  (exec_drw_draws x y n s).imp fun _ => And.imp_right Draws.pixel_ne_iff

/-- Settles O42: the fields of `Draws` that are not about pixels. -/
theorem drawWritesCollisionAndDirty : Obligations.DrawWritesCollisionAndDirty := by
  intro x y n s
  obtain ⟨t, ht, h⟩ := exec_drw_draws x y n s
  exact ⟨t, ht, h.collision, h.flag, h.dirty, pcPlus_of_pc_eq h.pc, h.regs, h.sameMemory, by rw [h.pc]; exact h.kept⟩

/-! ### The event of a truncated draw (R184) -/

theorem draw_outside_eq_none {s : State} {n : Nat} (x y : RegIx) (h : ∀ r, r < n → s.idx.toNat + r ≤ 0xFFF) :
    (s.draw x y n).2 = none := by
  rw [State.draw, drawRows_outside, if_neg]
  rintro ⟨hout, hpos⟩
  have hlast := h (n - 1) (by omega)
  unfold State.ea memBytes at hout
  omega

theorem draw_outside_eq_some {s : State} {n r : Nat} (x y : RegIx) (hr : r < n) (hout : s.idx.toNat + r > 0xFFF)
    (hfirst : ∀ q, q < r → s.idx.toNat + q ≤ 0xFFF) : (s.draw x y n).2 = some (s.idx.toNat + r) := by
  have hlow : r = 0 ∨ s.idx.toNat + r = memBytes := by
    rcases r with _ | q
    · exact .inl rfl
    · have hq := hfirst q (Nat.lt_succ_self q)
      unfold memBytes
      omega
  unfold memBytes at hlow
  rw [State.draw, drawRows_outside, State.ea, State.ea, memBytes, if_pos ⟨by omega, by omega⟩]
  congr 1
  omega

/-- Settles O43: the event is that of the row the loop ends at, and it is not a fatal one. -/
theorem drawReportsTheFirstRowOutsideMemory : Obligations.DrawReportsTheFirstRowOutsideMemory := by
  intro x y n s
  obtain ⟨t, ht, h⟩ := exec_drw_draws x y n s
  refine ⟨t, ht, by rw [h.kept], fun hinside => ?_, fun r hr hout hfirst => ?_⟩
  · rw [h.reports, draw_outside_eq_none x y hinside, State.raiseIfOutside]
  · rw [h.reports, draw_outside_eq_some x y hr hout hfirst, State.raiseIfOutside, raise_emitted]

/-! ### Drawing twice (R189) -/

/-- Settles O44: both draws hit the same pixels, each of which is inverted twice and is on before the second draw when
it was off before the first. -/
theorem drawingTwiceRestoresTheFramebuffer : Obligations.DrawingTwiceRestoresTheFramebuffer := by
  intro x y n s u hu hx hy
  have hfirst := draws_of_exec hu
  obtain ⟨t, ht, hsecond⟩ := exec_drw_draws x y n u
  have hsame : ∀ px py, u.plotsAt x y n.val px py ↔ s.plotsAt x y n.val px py :=
    plotsAt_congr hx hy (by rw [hfirst.kept]) hfirst.sameMemory n.val
  have hvf : t.reg vf = 1 ↔ ∃ px py, s.plotsAt x y n.val px py ∧ Frame.pixel s.fb px py = false := by
    rw [hsecond.collision]
    refine exists_congr fun px => exists_congr fun py => ?_
    rw [hsame]
    exact and_congr_right fun hp => by rw [hfirst.hit px py hp, Bool.not_eq_true']
  refine ⟨t, ht, frame_ext fun px py => ?_, hvf, fun hblank => ?_⟩
  · by_cases hp : s.plotsAt x y n.val px py
    · rw [hsecond.hit px py ((hsame px py).mpr hp), hfirst.hit px py hp, Bool.not_not]
    · rw [hsecond.miss px py (mt (hsame px py).mp hp), hfirst.miss px py hp]
  · rw [hvf, hblank, ← exists_plotsAt_iff s x y]
    simp only [pixel_blankFrame, and_true]

/-- Reset with every pixel on: a sprite has no pixel to land on that is off. -/
def litReset : State := State.reset.setFb (Vector.replicate 32 (Vector.replicate 64 true))

theorem pixel_litReset (px : Fin 64) (py : Fin 32) : Frame.pixel litReset.fb px py = true := by
  simp only [Frame.pixel, litReset, setFb_fb, Vector.get_eq_getElem, Vector.getElem_replicate]

/-- Refutes O45: on a lit screen the top row of glyph 0, at `I` = 0, collides in the first draw of `DRW V0,V0,1` and not
in the second, since the second collides only where the screen was off before the first. -/
theorem not_secondDrawOfANonemptySpriteAlwaysCollides :
    ¬ Obligations.SecondDrawOfANonemptySpriteAlwaysCollides := by
  intro h
  obtain ⟨u, hu, hfirst⟩ := exec_drw_draws 0 0 1 litReset
  have hreg : u.reg 0 = litReset.reg 0 := hfirst.regs 0 (by decide)
  obtain ⟨t, ht, -, hvf, -⟩ := drawingTwiceRestoresTheFramebuffer 0 0 1 litReset u hu hreg hreg
  have hbit : litReset.spriteBit 1 0 0 := ⟨by decide, by decide, by decide, by decide⟩
  obtain ⟨px, py, -, hoff⟩ := hvf.mp (h 0 0 1 litReset u t hu hreg hreg ht ⟨0, 0, hbit⟩)
  cases (pixel_litReset px py).symm.trans hoff

end Sys2Proof.Machine

/-! ### Extension instructions (R200 to R216) -/

namespace Sys2Proof

/-- Settles O6: the table reads the instruction back, and only the gate of R200 keeps it out. -/
theorem groupOffWordsAreUnknown : Obligations.GroupOffWordsAreUnknown := by
  intro p i hoff
  refine decode_eq_unknown_iff.mpr fun j hj => ?_
  cases (decodeTable_encode i).symm.trans hj
  exact hoff

end Sys2Proof

namespace Sys2Proof.Machine

/-! ### The last step of a block transfer (R209) -/

/-- `I` moves past the block exactly under `REGMEM_I_INCREMENT`. -/
theorem bumpIdx_idx_toNat (u : State) (x : RegIx) :
    (u.bumpIdx x).idx.toNat = (u.idx.toNat + if u.params.regmemIIncrement then x.val + 1 else 0) % 65536 := by
  unfold State.bumpIdx
  split
  · rw [setIdx_idx, BitVec.toNat_add, BitVec.toNat_ofNat, Nat.add_mod_mod]
  · exact (Nat.mod_eq_of_lt u.idx.isLt).symm

theorem bumpIdx_advance_pcPlus {s u : State} (x : RegIx) (h : u.pc = s.pc) : PcPlus 2 s (u.bumpIdx x).advance := by
  rw [bumpIdx_advance]
  exact advance_pcPlus h

/-! ### The block store (R206, R208) -/

theorem blockRegs_getElem (s : State) {x k : RegIx} (hk : k.val < (s.v.toList.take (x.val + 1)).length) :
    (s.v.toList.take (x.val + 1))[k.val] = s.reg k := by
  rw [List.getElem_take, Vector.getElem_toList]
  rfl

/-- Settles O49: `storeAtIdx_stores` with the registers V0 to VX, whose bytes land where they are writable. -/
theorem blockStoreWritesTheRegisters : Obligations.BlockStoreWritesTheRegisters := by
  intro x s _ hs hin hfont
  have hlen := blockRegs_length s x
  have hfits : s.idx.toNat + (s.v.toList.take (x.val + 1)).length ≤ memBytes := by
    rw [hlen, memBytes]
    omega
  obtain ⟨u, hexec, hset, hstored⟩ := storeAtIdx_stores (fun u => (u.bumpIdx x).advance) hs hfits hfont
  have hbyte : ∀ a, (u.bumpIdx x).advance.byteAt a = s.byteAfterStore (s.v.toList.take (x.val + 1)) a := fun a =>
    ((storeTail_bumpIdx_advance x).byteAt u a).trans (hstored a)
  have hmiss : ∀ a, (a < s.idx.toNat ∨ s.idx.toNat + (x.val + 1) ≤ a ∨ ¬ s.writable a) →
      (u.bumpIdx x).advance.byteAt a = s.byteAt a := fun a ha => by
    rw [hbyte, byteAfterStore_of_miss (by rwa [hlen])]
  refine ⟨(u.bumpIdx x).advance, hexec, bumpIdx_advance_pcPlus x (by rw [hset]; rfl), ?_, ?_, fun a ha => ?_,
    fun k _ hlow hignore => ?_, fun k hk hw => ?_⟩
  · rw [bumpIdx_advance, hset]
    rfl
  · rw [advance_eq, setPc_idx, bumpIdx_idx_toNat, hset]
    rfl
  · exact hmiss a (ha.imp_right .inl)
  · exact hmiss _ (.inr (.inr (not_writable_of_ignore hlow hignore)))
  · have hlt : k.val < (s.v.toList.take (x.val + 1)).length := by
      rw [hlen]
      exact Nat.lt_succ_of_le hk
    rw [hbyte, byteAfterStore_of_hit hlt hw, blockRegs_getElem]

/-! ### The block load (R207, R208) -/

/-- `V[0]` to `V[X]` as a block load leaves them: the bytes at `I` to `I + X`. -/
def State.loadedRegs (s : State) (x : RegIx) : Vector Byte 16 :=
  writeRegs s.v 0 ((List.range (x.val + 1)).map fun k => s.byteAt (s.idx.toNat + k))

theorem loadedRegs_get (s : State) (x k : RegIx) :
    (s.loadedRegs x).get k = if k ≤ x then s.byteAt (s.idx.toNat + k.val) else s.reg k := by
  rw [State.loadedRegs, Vector.get_eq_getElem, writeRegs_getElem]
  simp only [List.length_map, List.length_range, Nat.zero_le, true_and, Nat.zero_add, Nat.sub_zero, List.getElem_map,
    List.getElem_range, Order.lt_add_one_iff, Fin.le_def, dite_eq_ite]
  rfl

/-- Inside the extent the load moves the whole block (R207). -/
theorem execLdVxMem_loads {s : State} {x : RegIx} (hfits : s.idx.toNat + (x.val + 1) ≤ memBytes) :
    execLdVxMem x s = .next ((s.setV (s.loadedRegs x)).bumpIdx x).advance := by
  rcases boundsEvent_cases s .load (x.val + 1) with ⟨-, he⟩ | ⟨hout, -⟩
  · have hread : s.readBytes (s.ea 0) (x.val + 1) = _ := readBytes_eq hfits
    simp only [execLdVxMem, he, hread, State.loadedRegs]
    rfl
  · omega

/-- Check (a) of R208: an address of the block exceeds 0xFFF. -/
theorem execLdVxMem_outside {s : State} {x : RegIx} (hout : memBytes < s.idx.toNat + (x.val + 1)) :
    execLdVxMem x s = .next (s.haltedBy (.memoryAccessFault .load s.firstOutside s.pc)) := by
  rcases boundsEvent_cases s .load (x.val + 1) with ⟨hfits, -⟩ | ⟨-, he⟩
  · omega
  · simp only [execLdVxMem, he]
    exact congrArg Host.Outcome.next (raise_fatal s rfl)

/-- Settles O50: the registers are those of `loadedRegs`, and after them only `I` and `PC` move. -/
theorem blockLoadReadsTheRegisters : Obligations.BlockLoadReadsTheRegisters := by
  intro x s _ hin
  have hreg : ∀ k, ((s.setV (s.loadedRegs x)).bumpIdx x).advance.reg k = (s.loadedRegs x).get k := fun k => by
    rw [bumpIdx_advance]
    rfl
  refine ⟨_, execLdVxMem_loads (Nat.lt_succ_of_le hin), bumpIdx_advance_pcPlus x rfl, ?_, bumpIdx_idx_toNat _ x,
    fun k hk => ?_, fun k hk => ?_, fun a => ?_⟩
  · rw [bumpIdx_advance]
    rfl
  · rw [hreg, loadedRegs_get, if_pos hk]
  · rw [hreg, loadedRegs_get, if_neg (not_le.mpr hk)]
  · rw [bumpIdx_advance]
    rfl

/-- Settles O51: (a) is one address for both directions, `firstOutside`; (b) is the check of a store alone. -/
theorem blockTransferAddressChecks : Obligations.BlockTransferAddressChecks := by
  intro x s _
  have hlen := blockRegs_length s x
  refine ⟨fun hout => ?_, fun hin hlow hfault => ?_⟩
  · have hblock : memBytes < s.idx.toNat + (x.val + 1) := Nat.succ_lt_succ hout
    obtain ⟨hlo, hhi, hfirst, hlowest⟩ := firstOutside_lowest hout
    exact ⟨s.firstOutside, hlo, hhi, hfirst, hlowest, storeAtIdx_outside _ (hlen.symm ▸ hblock),
      execLdVxMem_outside hblock⟩
  · have hfits : s.idx.toNat + (x.val + 1) ≤ memBytes := Nat.lt_succ_of_le hin
    exact storeAtIdx_inFont _ (hlen.symm ▸ hfits) (Nat.lt_succ_of_le hlow) hfault

/-! ### Keys (R213 to R216) -/

theorem lowestKey_zero : lowestKey 0 = none := by decide

/-- The search in ascending order stops at the lowest pressed key. -/
theorem lowestKey_eq_some {key : Word} {k : Nat} (hk : k < 16) (hdown : key.getLsbD k = true)
    (hlowest : ∀ j, j < k → key.getLsbD j = false) : lowestKey key = some k := by
  rw [lowestKey, List.find?_range_eq_some]
  exact ⟨hdown, List.mem_range.mpr hk, fun j hj => by rw [hlowest j hj]; rfl⟩

/-- Settles O53: the two answers of `lowestKey`; the key taken is one register write. -/
theorem keyWaitTakesTheLowestKey : Obligations.KeyWaitTakesTheLowestKey := by
  intro x s _
  refine ⟨fun hnone => ?_, fun k hk hdown hlowest => ?_⟩
  · simp only [exec, execLdVxK, State.takeKey, hnone, lowestKey_zero]
  · obtain ⟨hreg, hpc, hframe⟩ := setReg_advance_effect s x (BitVec.ofNat 8 k)
    refine ⟨(s.setReg x (BitVec.ofNat 8 k)).advance, ?_, ?_, hpc, hframe⟩
    · simp only [exec, execLdVxK, State.takeKey, lowestKey_eq_some hk hdown hlowest]
    · rw [hreg, BitVec.toNat_ofNat]
      omega

/-- A skip on the negated condition. -/
theorem skipIf_not_pcPlus (s : State) (c : Bool) : PcPlus (if c then 2 else 4) s (s.skipIf !c) := by
  cases c with
  | true => exact skipIf_pcPlus s false
  | false => exact skipIf_pcPlus s true

/-- Settles O52: both skips test one bit of the key word, in opposite senses. -/
theorem keySkips : Obligations.KeySkips := fun x s _ =>
  ⟨⟨_, rfl, skipIf_onlyPc s _, skipIf_pcPlus s (s.keyDown x)⟩,
    ⟨_, rfl, skipIf_onlyPc s _, skipIf_not_pcPlus s (s.keyDown x)⟩⟩

/-! ### The offset jump, the timers and the font (R201 to R205) -/

/-- Settles O46: a 16-bit sum of two zero-extended operands. -/
theorem jpV0AddsTheOffset : Obligations.JpV0AddsTheOffset := by
  intro nnn s _
  refine ⟨_, rfl, ?_, setPc_onlyPc s _⟩
  rw [setPc_pc, BitVec.toNat_add, zextAddr_toNat, zextByte_toNat]

/-- Settles O47: one register write, and two writes of a timer. -/
theorem timerMoves : Obligations.TimerMoves := fun x s _ =>
  ⟨⟨_, rfl, setReg_advance_effect s x s.dt⟩,
    ⟨(s.setDt (s.reg x)).advance, rfl, rfl, advance_pcPlus rfl, rfl, fun _ => rfl⟩,
    ⟨(s.setSt (s.reg x)).advance, rfl, rfl, advance_pcPlus rfl, rfl, fun _ => rfl⟩⟩

/-- A glyph has five bytes, and the font begins at address 0 (R28). -/
theorem glyphAddress_toNat (s : State) {b : Byte} (h : b.toNat ≤ 0x0F) : (s.glyphAddress b).toNat = 5 * b.toNat := by
  rw [State.glyphAddress, if_pos h, BitVec.toNat_ofNat]
  omega

/-- Settles O48: one write to `I`, free or not, and `glyphAddress_toNat` for a digit. -/
theorem fontAddressOfADigit : Obligations.FontAddressOfADigit := fun x s _ =>
  ⟨(s.setIdx (s.glyphAddress (s.reg x))).advance, rfl, glyphAddress_toNat s, setIdx_advance_effect s _⟩

end Sys2Proof.Machine

/-! ### Exceptions and the two stages after execute: the unknown word, the timers, the sound trigger, the frame (R232,
R244 to R252)

A step ends the run and emits at most one event, or it runs one instruction and emits what the two stages find in the
state that the instruction leaves. Which instruction that is, and what it leaves, the state before the step decides. -/

namespace Sys2Proof.Machine

/-! ### The unknown word (R232) -/

theorem step_of_unknown {s : State} {w u : Word} (hrun : s.run = .running) (hstop : s.tickInput.stop = false)
    (hfetch : s.fetchWord = some w) (hd : decode s.params w = .unknown u) :
    step s = .next (s.haltedBy (.unknownOpcode u s.pc)) := by
  simp only [step, State.tick, hrun, hstop, hfetch, State.runWord, hd, Bool.false_eq_true, if_false]
  rw [raise_finishTick_of_fatal s rfl]

theorem run_succ {s t : State} (h : step s = .next t) (n : Nat) :
    Host.Core.run core (n + 1) s = Host.Core.run core n t := by
  simp only [Host.Core.run, show core.step s = .next t from h]

/-- A halted machine stays as it is for any number of ticks (R109). -/
theorem run_of_halted {s : State} (h : s.run = .stopped ∨ s.run = .faulted) (n : Nat) :
    Host.Core.run core n s = .next s := by
  induction n with
  | zero => rfl
  | succ n ih => rw [run_succ (haltedTickChangesNothing s h), ih]

/-- Settles O11: the first tick halts the machine, and the other ticks find it halted. -/
theorem unknownWordIsFatal : Obligations.UnknownWordIsFatal := by
  intro s w hrun hstop hpc hw hd n
  have hfetch : s.fetchWord = some w := hw ▸ fetchWord_eq_some hpc
  rw [run_succ (step_of_unknown hrun hstop hfetch hd), run_of_halted (.inr rfl)]

/-! ### What an instruction leaves for the two stages -/

/-- The instruction `i` changes the framebuffer of `s` as R21 counts it: it is `CLS`, or a draw with a 1 bit in a row
inside `MEM` (R181, R188). -/
def State.RedrawnBy (s : State) (i : Instr) : Prop :=
  i = .cls ∨ ∃ x y n, i = .drw x y n ∧ ∃ r c, s.spriteBit n.val r c

theorem not_redrawnBy {s : State} {i : Instr} (hcls : i ≠ .cls) (hdrw : ∀ x y n, i ≠ .drw x y n) :
    ¬ s.RedrawnBy i := by
  rintro (h | ⟨x, y, n, h, -⟩)
  · exact hcls h
  · exact hdrw x y n h

theorem redrawnBy_drw_iff {s : State} {x y : RegIx} {n : Fin 16} :
    s.RedrawnBy (.drw x y n) ↔ ∃ r c, s.spriteBit n.val r c := by
  constructor
  · rintro (h | ⟨x', y', n', h, hbit⟩)
    · cases h
    · cases h
      exact hbit
  · exact fun hbit => .inr ⟨x, y, n, rfl, hbit⟩

/-- The fields that the timer stage and the render stage read are as before. -/
def SameStageFields (s t : State) : Prop := t.dt = s.dt ∧ t.st = s.st ∧ t.dirty = s.dirty

theorem raise_sameStageFields (s : State) (e : Event) : SameStageFields s (s.raise e) := by
  rw [raise_frame]
  exact ⟨rfl, rfl, rfl⟩

theorem execCall_sameStageFields {nnn : Addr12} {s t : State} (h : exec (.call nnn) s = .next t) :
    SameStageFields s t := by
  rcases Nat.lt_or_ge s.sp.val 16 with hfree | hfull
  · obtain ⟨u, hu, hframe, -⟩ := call_pushes nnn hfree
    cases h.symm.trans hu
    rw [hframe]
    exact ⟨rfl, rfl, rfl⟩
  · cases h.symm.trans (call_reports nnn (by omega))
    exact ⟨rfl, rfl, rfl⟩

theorem execRet_sameStageFields {s t : State} (h : exec .ret s = .next t) : SameStageFields s t := by
  rcases Nat.eq_zero_or_pos s.sp.val with hempty | hpos
  · cases h.symm.trans (ret_reports hempty)
    exact ⟨rfl, rfl, rfl⟩
  · obtain ⟨u, hu, hframe, -⟩ := ret_pops hpos
    cases h.symm.trans hu
    rw [hframe]
    exact ⟨rfl, rfl, rfl⟩

theorem storeAtIdx_sameStageFields {s t : State} {bs : List Byte} {k : State → State} (hk : StoreTail k)
    (h : storeAtIdx s bs k = .next t) : SameStageFields s t := by
  rcases storeAtIdx_cases s bs k with ⟨e, -, -, h'⟩ | ⟨he, u, hu, h'⟩
  · cases h.symm.trans h'
    exact raise_sameStageFields s e
  · cases h.symm.trans h'
    obtain ⟨hset, -⟩ := checkedStore_spec he hu
    rw [hk u, hset]
    exact ⟨rfl, rfl, rfl⟩

theorem execLdVxMem_sameStageFields {x : RegIx} {s t : State} (h : execLdVxMem x s = .next t) :
    SameStageFields s t := by
  rcases Nat.lt_or_ge memBytes (s.idx.toNat + (x.val + 1)) with hout | hfits
  · cases h.symm.trans (execLdVxMem_outside hout)
    exact ⟨rfl, rfl, rfl⟩
  · cases h.symm.trans (execLdVxMem_loads hfits)
    rw [bumpIdx_advance]
    exact ⟨rfl, rfl, rfl⟩

theorem takeKey_sameStageFields (s : State) (x : RegIx) : SameStageFields s (s.takeKey x) := by
  unfold State.takeKey
  split <;> exact ⟨rfl, rfl, rfl⟩

/-- What the instruction `i` does to the fields that the two stages read: only the timer loads write a timer, only an
instruction that redraws sets `DIRTY` (R18, R19, R21). -/
structure LeavesToStages (i : Instr) (s t : State) : Prop where
  dt : (∀ x, i ≠ .ldDtVx x) → t.dt = s.dt
  st : (∀ x, i ≠ .ldStVx x) → t.st = s.st
  dirty : t.dirty = true ↔ s.dirty = true ∨ s.RedrawnBy i

theorem dirty_iff_of_not_redraw {i : Instr} {s t : State} (hcls : i ≠ .cls) (hdrw : ∀ x y n, i ≠ .drw x y n)
    (h : t.dirty = s.dirty) : t.dirty = true ↔ s.dirty = true ∨ s.RedrawnBy i := by
  rw [h, or_iff_left (not_redrawnBy hcls hdrw)]

theorem LeavesToStages.of_same {i : Instr} {s t : State} (hcls : i ≠ .cls) (hdrw : ∀ x y n, i ≠ .drw x y n)
    (h : SameStageFields s t) : LeavesToStages i s t := by
  obtain ⟨hdt, hst, hdirty⟩ := h
  exact ⟨fun _ => hdt, fun _ => hst, dirty_iff_of_not_redraw hcls hdrw hdirty⟩

theorem exec_leavesToStages {i : Instr} {s t : State} (h : exec i s = .next t) : LeavesToStages i s t := by
  cases i
  case cls =>
    cases h
    exact ⟨fun _ => rfl, fun _ => rfl, iff_of_true rfl (.inr (.inl rfl))⟩
  case drw x y n =>
    have hdraws := draws_of_exec h
    exact ⟨fun _ => by rw [hdraws.kept], fun _ => by rw [hdraws.kept], by rw [hdraws.dirty, redrawnBy_drw_iff]⟩
  case ldDtVx x =>
    cases h
    exact ⟨fun hi => absurd rfl (hi x), fun _ => rfl, dirty_iff_of_not_redraw nofun nofun rfl⟩
  case ldStVx x =>
    cases h
    exact ⟨fun _ => rfl, fun hi => absurd rfl (hi x), dirty_iff_of_not_redraw nofun nofun rfl⟩
  case call nnn => exact .of_same nofun nofun (execCall_sameStageFields h)
  case ret => exact .of_same nofun nofun (execRet_sameStageFields h)
  case ldB x => exact .of_same nofun nofun (storeAtIdx_sameStageFields storeTail_advance h)
  case ldMemVx x => exact .of_same nofun nofun (storeAtIdx_sameStageFields (storeTail_bumpIdx_advance x) h)
  case ldVxMem x => exact .of_same nofun nofun (execLdVxMem_sameStageFields h)
  case ldVxK x => cases h; exact .of_same nofun nofun (takeKey_sameStageFields s x)
  all_goals cases h; exact .of_same nofun nofun ⟨rfl, rfl, rfl⟩

/-! ### The timers (R244, R245) -/

/-- Settles O14: the timer stage is `countDown` of what the instruction leaves, and `LeavesToStages` says what that
is. -/
theorem timersCountDownEachTick : Obligations.TimersCountDownEachTick := by
  intro s u i hi h hu
  have hleaves := exec_leavesToStages h
  refine ⟨u.finishTick, hi.step_eq h, ?_, ?_, hleaves.dt, hleaves.st⟩
  · rw [finishTick_running hu]
    exact countDown_toNat u.dt
  · rw [finishTick_running hu]
    exact countDown_toNat u.st

/-! ### The outputs of a tick (R113) -/

/-- The outputs of one tick, the latest first: a frame, the sound trigger, an event, each if there is one. -/
def tickOutputs (e : Option Event) (trigger : Bool) (f : Option Frame) : List Output :=
  (f.map Output.frame).toList ++ ((if trigger then [Output.soundTrigger] else []) ++ (e.map Output.event).toList)

section
variable (e : Option Event) (trigger : Bool) (f : Option Frame)

theorem soundTrigger_mem_tickOutputs : Output.soundTrigger ∈ tickOutputs e trigger f ↔ trigger = true := by
  simp [tickOutputs]

theorem count_soundTrigger_tickOutputs_le : (tickOutputs e trigger f).count Output.soundTrigger ≤ 1 := by
  have hframe : (f.map Output.frame).toList.count Output.soundTrigger = 0 := List.count_eq_zero.mpr (by simp)
  have hevent : (e.map Output.event).toList.count Output.soundTrigger = 0 := List.count_eq_zero.mpr (by simp)
  rw [tickOutputs, List.count_append, List.count_append, hframe, hevent]
  cases trigger <;> decide

theorem frame_mem_tickOutputs {g : Frame} : Output.frame g ∈ tickOutputs e trigger f ↔ f = some g := by
  cases trigger <;> simp [tickOutputs]

theorem countP_isFrame_tickOutputs_le : (tickOutputs e trigger f).countP Output.isFrame ≤ 1 := by
  have hevent : (e.map Output.event).toList.countP Output.isFrame = 0 := by cases e <;> rfl
  have htrigger : (if trigger then [Output.soundTrigger] else []).countP Output.isFrame = 0 := by cases trigger <;> rfl
  rw [tickOutputs, List.countP_append, List.countP_append, hevent, htrigger]
  exact List.countP_le_length.trans Option.length_toList_le

end

/-- The instruction that a tick runs is the one its word decodes to. -/
theorem State.ReadyFor.unique {s : State} {i j : Instr} (hi : s.ReadyFor i) (hj : s.ReadyFor j) : i = j :=
  Decoded.instr.inj (hi.decoded.symm.trans hj.decoded)

/-- A tick whose instruction leaves the machine running does the rest of the tick, and the machine runs on. -/
theorem State.ReadyFor.run_of_step {s t u : State} {i : Instr} (hi : s.ReadyFor i) (h : exec i s = .next u)
    (hu : u.run = .running) (ht : step s = .next t) : t.run = .running := by
  cases ht.symm.trans (hi.step_eq h)
  rw [finishTick_running hu]
  exact hu

/-- A step leaves the machine halted, with `DIRTY` as it was and an event at most emitted. -/
structure Halts (s t : State) : Prop where
  run : t.run ≠ .running
  dirty : t.dirty = s.dirty
  emits : ∃ e, t.emitted = tickOutputs e false none ++ s.emitted

/-- A step runs the instruction `i`, which leaves `u` running, and then the two stages, whose outputs `u` decides
(R100, R246, R252). -/
structure Finishes (i : Instr) (s u t : State) : Prop where
  ready : s.ReadyFor i
  exec_eq : exec i s = .next u
  running : u.run = .running
  finish : t = u.finishTick
  emits : ∃ e, t.emitted =
    tickOutputs e (decide (u.st = 1)) (if u.dirty then some u.fb else none) ++ s.emitted

theorem finishes_of_completes {i : Instr} {s u : State} (hi : s.ReadyFor i) (h : exec i s = .next u)
    (hc : Completes i s u) : Finishes i s u u.finishTick := by
  have hu : u.run = .running := hc.run_eq.trans hi.running
  obtain ⟨e, he⟩ := hc.emitted_eq
  refine ⟨hi, h, hu, rfl, e, ?_⟩
  rw [finishTick_running hu, he, tickOutputs]
  simp only [decide_eq_true_eq, List.append_assoc]
  cases u.dirty <;> rfl

/-- Everything a step does to the outputs. -/
theorem step_halts_or_finishes {s t : State} (h : step s = .next t) : Halts s t ∨ ∃ i u, Finishes i s u t := by
  rcases step_cases h with ⟨hrun, rfl⟩ | ⟨-, -, rfl⟩ | ⟨-, -, -, rfl⟩ | ⟨-, -, -, w, -, rfl⟩ | ⟨i, u, hi, hu, rfl⟩
  · exact .inl ⟨hrun, rfl, none, rfl⟩
  · exact .inl ⟨nofun, rfl, none, rfl⟩
  · exact .inl ⟨nofun, rfl, some _, rfl⟩
  · exact .inl ⟨nofun, rfl, some _, rfl⟩
  · rcases exec_cases hu with ⟨e, he, rfl⟩ | hc
    · rw [finishTick_halted (s := s.haltedBy e) nofun]
      exact .inl ⟨nofun, rfl, some e, rfl⟩
    · exact .inr ⟨i, u, finishes_of_completes hi hu hc⟩

/-! ### The sound trigger (R246) -/

/-- Settles O15: a halted machine triggers nothing and has run no instruction that leaves it running; otherwise the
trigger is that of the one instruction the tick runs. -/
theorem soundTriggerFiresFromOneToZero : Obligations.SoundTriggerFiresFromOneToZero := by
  intro s t h
  rcases step_halts_or_finishes h with hhalt | ⟨i, u, hfin⟩
  · obtain ⟨e, he⟩ := hhalt.emits
    refine ⟨_, he, count_soundTrigger_tickOutputs_le _ _ _, ?_⟩
    rw [soundTrigger_mem_tickOutputs]
    refine iff_of_false nofun ?_
    rintro ⟨i, u, hi, hu, hrun, -⟩
    exact hhalt.run (hi.run_of_step hu hrun h)
  · obtain ⟨e, he⟩ := hfin.emits
    refine ⟨_, he, count_soundTrigger_tickOutputs_le _ _ _, ?_⟩
    rw [soundTrigger_mem_tickOutputs, decide_eq_true_eq]
    constructor
    · intro hst
      refine ⟨i, u, hfin.ready, hfin.exec_eq, hfin.running, hst, ?_⟩
      rw [hfin.finish, finishTick_running hfin.running, hst]
      rfl
    · rintro ⟨j, u', hj, hu', -, hst, -⟩
      cases hj.unique hfin.ready
      cases hu'.symm.trans hfin.exec_eq
      exact hst

/-! ### The frame (R252) -/

/-- The instructions that redraw, as the statement lists them. -/
theorem exists_redraw_iff (s : State) :
    (∃ i, s.ReadyFor i ∧ s.RedrawnBy i) ↔
      s.ReadyFor .cls ∨ ∃ x y n, s.ReadyFor (.drw x y n) ∧ ∃ r c, s.spriteBit n.val r c := by
  constructor
  · rintro ⟨i, hi, rfl | ⟨x, y, n, rfl, hbit⟩⟩
    · exact .inl hi
    · exact .inr ⟨x, y, n, hi, hbit⟩
  · rintro (hi | ⟨x, y, n, hi, hbit⟩)
    · exact ⟨.cls, hi, .inl rfl⟩
    · exact ⟨.drw x y n, hi, .inr ⟨x, y, n, rfl, hbit⟩⟩

/-- From a clean state `DIRTY` says whether the instruction redraws. -/
theorem dirty_iff_redrawnBy {i : Instr} {s u : State} (hs : s.Clean) (h : exec i s = .next u) :
    u.dirty = true ↔ s.RedrawnBy i := by
  rw [(exec_leavesToStages h).dirty, show s.dirty = false from hs]
  simp only [Bool.false_eq_true, false_or]

/-- From a clean state an instruction that redraws leaves the machine running: a fatal event would leave `DIRTY`
clear. -/
theorem running_of_redrawnBy {i : Instr} {s u : State} (hs : s.Clean) (hi : s.ReadyFor i) (h : exec i s = .next u)
    (hdraw : s.RedrawnBy i) : u.run = .running := by
  have hdirty := (dirty_iff_redrawnBy hs h).mpr hdraw
  rcases exec_cases h with ⟨e, -, rfl⟩ | hc
  · cases hs.symm.trans hdirty
  · exact hc.run_eq.trans hi.running

/-- A step that leaves the machine halted has run no instruction that redraws. -/
theorem Halts.not_redrawn {s t : State} (h : Halts s t) (hs : s.Clean) (ht : step s = .next t) :
    ¬ ∃ i, s.ReadyFor i ∧ s.RedrawnBy i := by
  rintro ⟨i, hi, hdraw⟩
  obtain ⟨u, hu⟩ := exec_next i s
  exact h.run (hi.run_of_step hu (running_of_redrawnBy hs hi hu hdraw) ht)

/-- From a clean state `DIRTY` after the instruction of a tick says whether the tick redraws. -/
theorem Finishes.dirty_iff {i : Instr} {s u t : State} (h : Finishes i s u t) (hs : s.Clean) :
    u.dirty = true ↔ ∃ j, s.ReadyFor j ∧ s.RedrawnBy j := by
  rw [dirty_iff_redrawnBy hs h.exec_eq]
  constructor
  · exact fun hdraw => ⟨i, h.ready, hdraw⟩
  · rintro ⟨j, hj, hdraw⟩
    exact hj.unique h.ready ▸ hdraw

/-- Settles O16: a halted machine emits no frame and has redrawn nothing; otherwise a frame is emitted exactly when
the instruction of the tick leaves `DIRTY` set, and it is the framebuffer, which the two stages leave. -/
theorem frameEmittedByClsOrPlottingDrw : Obligations.FrameEmittedByClsOrPlottingDrw := by
  intro s t hs h
  rw [← exists_redraw_iff]
  rcases step_halts_or_finishes h with hhalt | ⟨i, u, hfin⟩
  · obtain ⟨e, he⟩ := hhalt.emits
    have hnone : ∀ f, Output.frame f ∉ tickOutputs e false none := fun f hf => nomatch (frame_mem_tickOutputs ..).mp hf
    exact ⟨_, he, hhalt.dirty.trans hs, fun f hf => absurd hf (hnone f), countP_isFrame_tickOutputs_le _ _ _,
      iff_of_false (fun ⟨f, hf⟩ => hnone f hf) (hhalt.not_redrawn hs h)⟩
  · obtain ⟨e, he⟩ := hfin.emits
    refine ⟨_, he, ?clean, fun f hf => ?copy, countP_isFrame_tickOutputs_le _ _ _, ?iff⟩
    case clean => rw [hfin.finish, finishTick_running hfin.running]
    case copy =>
      rw [frame_mem_tickOutputs, Option.ite_none_right_eq_some, Option.some_inj] at hf
      rw [hfin.finish, finishTick_running hfin.running, hf.2]
    case iff =>
      simp only [frame_mem_tickOutputs, Option.ite_none_right_eq_some, Option.some_inj]
      rw [exists_and_left, hfin.dirty_iff hs, and_iff_left ⟨u.fb, rfl⟩]

end Sys2Proof.Machine

/-! ### Reset, and the ROM that construction loads or refuses (R270 to R273)

A ROM that fits changes the memory of the reset state and nothing else, and there only the bytes from 0x200 on that it
names; a ROM that does not fit changes `RUN` and the record of outputs and nothing else. -/

namespace Sys2Proof.Machine

/-! ### The bytes of a load -/

theorem loadBytes_byteAt_above {s : State} {a k : Nat} {bs : List Byte} (h : a + bs.length ≤ k) :
    (s.loadBytes a bs).byteAt k = s.byteAt k := by
  induction bs generalizing s a with
  | nil => rfl
  | cons b bs ih =>
    rw [List.length_cons] at h
    rw [State.loadBytes, ih (by omega), byteAt_putByte_ne s b (by omega)]

theorem loadBytes_byteAt_loaded {s : State} {a k : Nat} {bs : List Byte} (hs : s.MemCanonical)
    (hfits : a + bs.length ≤ memBytes) (hk : k < bs.length) : (s.loadBytes a bs).byteAt (a + k) = bs[k] := by
  induction bs generalizing s a k with
  | nil => exact absurd hk (Nat.not_lt_zero k)
  | cons b bs ih =>
    rw [List.length_cons] at hfits hk
    rw [State.loadBytes]
    cases k with
    | zero => exact (loadBytes_byteAt_below bs (Nat.lt_succ_self a)).trans (byteAt_putByte_same hs a b)
    | succ k =>
      have hput := putByte_memCanonical hs b (show a < memBytes by omega)
      rw [← Nat.succ_add_eq_add_succ a k]
      exact ih hput (by omega) (Nat.lt_of_succ_lt_succ hk)

/-! ### What construction makes of a ROM -/

section
variable {p : Params} {rom : List Byte}

theorem construct_of_fits (h : rom.length ≤ romCapacity) :
    construct p rom = (construct p []).loadBytes loadAddress rom := if_pos h

/-- Construction with a ROM that fits is construction without one, up to memory (R272). -/
theorem construct_kept_of_fits (h : rom.length ≤ romCapacity) :
    construct p rom = (construct p []).setMem (construct p rom).mem := by
  rw [construct_of_fits h]
  exact loadBytes_eq ..

theorem construct_of_exceeds (h : romCapacity < rom.length) :
    construct p rom = (construct p []).haltedBy (.capacityExceeded rom.length) :=
  (if_neg (Nat.not_le.mpr h)).trans (raise_fatal _ rfl)

/-- Memory after a reset without a ROM: the font, and 0 elsewhere (R271). -/
theorem construct_nil_byteAt (a : Nat) : (construct p []).byteAt a = resetByte p a := rfl

end

/-- Settles O56: the two branches of construction. -/
theorem romThatDoesNotFitIsNotLoaded : Obligations.RomThatDoesNotFitIsNotLoaded := by
  refine fun p rom => ⟨fun hfits => ?_, construct_of_exceeds⟩
  rw [construct_kept_of_fits hfits]
  exact ⟨rfl, rfl⟩

/-- Settles O55: the bytes of the load, and the font below them. -/
theorem romLoadPlacesTheBytes : Obligations.RomLoadPlacesTheBytes := by
  intro p rom hfits
  have hother : ∀ a, a < 0x200 ∨ 0x200 + rom.length ≤ a → (construct p rom).byteAt a = (construct p []).byteAt a := by
    rw [construct_of_fits hfits]
    rintro a (hbelow | habove)
    · exact loadBytes_byteAt_below rom hbelow
    · exact loadBytes_byteAt_above habove
  refine ⟨fun k hk => ?_, hother, fun a ha => ?_⟩
  · rw [construct_of_fits hfits]
    exact loadBytes_byteAt_loaded (construct_inv p []).memCanonical (Nat.add_le_add_left hfits loadAddress) hk
  · rw [hother a (.inl (by omega)), construct_nil_byteAt]
    exact dif_pos ha

/-- Settles O54: memory is as `romLoadPlacesTheBytes` says, and the other fields are those of a reset without a ROM. -/
theorem resetValues : Obligations.ResetValues := by
  refine ⟨rfl, fun p rom hfits => ⟨construct p rom, rfl, ?_⟩⟩
  obtain ⟨hrom, hother, hfont⟩ := romLoadPlacesTheBytes p rom hfits
  have hzero : ∀ a, 80 ≤ a → a ≤ 0xFFF → (a < 0x200 ∨ 0x200 + rom.length ≤ a) → (construct p rom).byteAt a = 0 := by
    intro a hlo _ ha
    rw [hother a ha, construct_nil_byteAt]
    exact dif_neg (Nat.not_lt.mpr hlo)
  have hreg : ∀ r, (construct p []).reg r = 0 := fun r => Vector.getElem_replicate r.isLt
  have hslot : ∀ k, (construct p []).stk.get k = 0 := fun k => Vector.getElem_replicate k.isLt
  rw [construct_kept_of_fits hfits] at hfont hrom hzero ⊢
  exact ⟨hreg, rfl, rfl, rfl, hslot, rfl, rfl, pixel_blankFrame, rfl, rfl, hfont, hrom, hzero⟩

end Sys2Proof.Machine

/-! ### Stack misuse never recovers (R282)

A `CALL` on a full stack or a `RET` on an empty one leaves everything that the next tick reads of it as it was: `PC`,
`SP`, memory, the parameters. So the next tick finds the same misuse. -/

namespace Sys2Proof.Machine

/-- The instruction `i` misuses the call stack of `s`, and `e` is its event (R123, R125). -/
def State.Misuses (s : State) (i : Instr) (e : Event) : Prop :=
  (∃ nnn, i = .call nnn ∧ s.sp = 16 ∧ e = .stackOverflow s.pc (encode i)) ∨
    (i = .ret ∧ s.sp = 0 ∧ e = .stackUnderflow s.pc (encode i))

theorem State.Misuses.exec_eq {s : State} {i : Instr} {e : Event} (h : s.Misuses i e) :
    exec i s = .next (s.reporting e) := by
  rcases h with ⟨nnn, rfl, hfull, rfl⟩ | ⟨rfl, hempty, rfl⟩
  · exact call_reports nnn (congrArg Fin.val hfull)
  · exact ret_reports (congrArg Fin.val hempty)

/-- Every tick of `s` is about to run an `i` that only reports `e`: no listed input stops the machine before it. -/
structure State.Stuck (i : Instr) (e : Event) (s : State) : Prop where
  ready : s.ReadyFor i
  clean : s.Clean
  misuses : s.Misuses i e
  noStop : ∀ inp ∈ s.inputs, inp.stop = false

/-- From `s` to `t`, `n` ticks have reported `e` once each and counted the timers down, and changed nothing else
(R282). The sound trigger of a timer is left out of the count of outputs. -/
structure Reports (e : Event) (n : Nat) (s t : State) : Prop where
  kept : t = { s with
    dt := t.dt, st := t.st, emitted := t.emitted, inputs := s.inputs.drop n, draws := s.draws + n }
  dt : t.dt.toNat = s.dt.toNat - n
  st : t.st.toNat = s.st.toNat - n
  emits : t.emitted.filter (fun o => o != .soundTrigger) =
    List.replicate n (.event e) ++ s.emitted.filter (fun o => o != .soundTrigger)

section
variable {i : Instr} {e : Event} {s t u : State} {m n : Nat}

theorem Reports.refl (e : Event) (s : State) : Reports e 0 s s := ⟨rfl, rfl, rfl, rfl⟩

theorem Reports.trans (hsu : Reports e m s u) (hut : Reports e n u t) : Reports e (m + n) s t where
  kept := by
    rw [hut.kept, hsu.kept]
    simp only [List.drop_drop, Nat.add_assoc]
  dt := by rw [hut.dt, hsu.dt, Nat.sub_sub]
  st := by rw [hut.st, hsu.st, Nat.sub_sub]
  emits := by
    rw [hut.emits, hsu.emits, ← List.append_assoc, List.replicate_append_replicate, Nat.add_comm n m]

/-- Where no listed input stops the machine, none does at the next tick. -/
theorem tickInput_stop_eq_false (h : ∀ inp ∈ s.inputs, inp.stop = false) : s.tickInput.stop = false := by
  unfold State.tickInput
  split
  next inp rest hinputs => exact h inp (hinputs ▸ List.mem_cons_self)
  next => rfl

/-- A stuck state stays stuck under ticks that only report: they change nothing that `Stuck` reads but drop inputs. -/
theorem State.Stuck.of_reports (hs : s.Stuck i e) (h : Reports e n s t) : t.Stuck i e := by
  obtain ⟨⟨hrun, -, hpc, hdec⟩, hclean, hmis, hstop⟩ := hs
  have hstop' : ∀ inp ∈ t.inputs, inp.stop = false := by
    rw [h.kept]
    exact fun inp hinp => hstop inp (List.mem_of_mem_drop hinp)
  have hnext := tickInput_stop_eq_false hstop'
  rw [h.kept] at hnext hstop' ⊢
  exact ⟨⟨hrun, hnext, hpc, hdec⟩, hclean, hmis, hstop'⟩

/-- One tick of a stuck state only reports. -/
theorem State.Stuck.step_reports (hs : s.Stuck i e) : ∃ t, step s = .next t ∧ Reports e 1 s t := by
  refine ⟨_, hs.ready.step_eq hs.misuses.exec_eq, ?_⟩
  rw [finishTick_running (s := s.reporting e) hs.ready.running]
  have hclean : s.dirty = false := hs.clean
  refine ⟨?_, countDown_toNat s.dt, countDown_toNat s.st, ?_⟩
  · simp only [State.reporting, hclean, List.drop_one]
  · simp only [State.reporting, hclean]
    by_cases hst : s.st = 1 <;> simp [hst]

/-- Any number of ticks of a stuck state only report. -/
theorem State.Stuck.run_reports (hs : s.Stuck i e) (n : Nat) :
    ∃ t, Host.Core.run core n s = .next t ∧ Reports e n s t := by
  induction n generalizing s with
  | zero => exact ⟨s, rfl, .refl e s⟩
  | succ n ih =>
    obtain ⟨u, hu, hsu⟩ := hs.step_reports
    obtain ⟨t, ht, hut⟩ := ih (hs.of_reports hsu)
    exact ⟨t, (run_succ hu n).trans ht, Nat.add_comm n 1 ▸ hsu.trans hut⟩

end

/-- Settles O18: the state is stuck, and it is `State.Stuck.run_reports` field by field. -/
theorem stackMisuseNeverRecovers : Obligations.StackMisuseNeverRecovers := by
  intro s i e hready hclean hmis hstop n
  obtain ⟨t, ht, h⟩ := State.Stuck.run_reports ⟨hready, hclean, hmis, hstop⟩ n
  exact ⟨t, ht, h.kept, h.dt, h.st, h.emits⟩

end Sys2Proof.Machine
